-- ==== Sys2Proof/Word.lean ====
section
/-! DEFINITION. The word types of TBX-CODEC: the widths of 00_scope.md R7 and R8. -/

namespace Sys2Proof

/-- One byte of a stream (R9, R42). -/
abbrev Byte := BitVec 8

/-- The checksum accumulator's width, CSUM_W = 16 (R7). -/
abbrev Word16 := BitVec 16

/-- The width of LEN, CUR_LEN, IDX and STATUS: LEN_W = STATUS_W = 32 (R8). -/
abbrev Word32 := BitVec 32

/-- The width of a command word and of OUTCNT: CMD_W = OUTCNT_W = 64 (R8). -/
abbrev Word64 := BitVec 64

end Sys2Proof
end

