-- ==== Sys2Proof/Config.lean ====
section
/-! DEFINITION. The constants the source fixes (00_scope.md R7) and the parameters the spec sets (R8).
No parameter is left open to the model (R8), so there is no free value here. -/

namespace Sys2Proof.Config

/-- SOF, the first byte of every frame (R7). -/
abbrev sof : Byte := 0x01

/-- EOF, the last byte of every frame (R7). -/
abbrev eof : Byte := 0x02

/-- ESC, the escape lead byte (R7). -/
abbrev esc : Byte := 0x03

/-- ESC_OFFSET, added to a reserved byte to form its continuation (R7). -/
abbrev escOffset : Byte := 0x03

/-- The lowest legal continuation byte, from ESC_CONT = [0x04, 0x06] (R7). -/
abbrev escContLow : Byte := 0x04

/-- The highest legal continuation byte, from ESC_CONT = [0x04, 0x06] (R7). -/
abbrev escContHigh : Byte := 0x06

/-- MIN_FRAME, the shortest frame length the decoder accepts (R7). -/
abbrev minFrame : Nat := 4

/-- STAGE_CAP, the capacity of the output staging buffer (R8). -/
abbrev stageCap : Nat := 5

/-- The number of values of LEN: LEN_W = 32, so LEN is below `2 ^ 32` (R8, R58). -/
abbrev lenBound : Nat := 2 ^ 32

end Sys2Proof.Config
end

