-- ==== Sys2Proof/Syntax.lean ====
section
/-! DEFINITION. The instructions of TBX-CODEC: the five commands of spec/opcode_table.json (30_encoding.md R57). -/

namespace Sys2Proof

/-- A command: its operation and LEN, the exact number of input bytes it consumes (R56 to R58).
LEN is written as the number the assembler line `MNEMONIC LEN` holds (R64); `Instr.wellFormed` says
that it fits the 32-bit field. -/
inductive Instr where
  | escape (len : Nat)
  | unescape (len : Nat)
  | checksum (len : Nat)
  | encodeFrame (len : Nat)
  | decodeFrame (len : Nat)
  deriving DecidableEq, Repr

/-- The LEN operand of a command (R58). -/
def Instr.len : Instr → Nat
  | .escape n => n
  | .unescape n => n
  | .checksum n => n
  | .encodeFrame n => n
  | .decodeFrame n => n

end Sys2Proof
end

