-- ==== Sys2Proof/WellFormed.lean ====
section
/-! DEFINITION. Which commands have a command word: LEN fits its 32-bit field (30_encoding.md R58, R64).
There is no other operand and so no other check: every LEN in `0 .. 2^32 - 1` is legal for every OP. -/

namespace Sys2Proof

/-- LEN is in `0 .. 2^32 - 1` (R58, R64). -/
def Instr.wellFormed (i : Instr) : Bool :=
  decide (i.len < Config.lenBound)

end Sys2Proof
end

