-- ==== Sys2Proof/Decode.lean ====
section
/-! DEFINITION. The command decoder, total on all 2^64 words (30_encoding.md R60), and the encoder after it,
written from the same field table (R56, R57). -/

namespace Sys2Proof

/-- Why a command word is illegal (R59, R61). The machine does not stop on it: ACCEPT completes the
word with ILLEGAL_COMMAND. -/
inductive DecodeError where
  /-- Some bit of RSVD, bits 31:3, is set (R59). -/
  | reservedBits
  /-- RSVD is 0 and OP is 5, 6 or 7 (R57, R61). -/
  | reservedOp
  deriving DecidableEq, Repr

/-- OP, bits 2:0 of a command word (R56). -/
def wordOp (w : Word64) : BitVec 3 := w.extractLsb' 0 3

/-- RSVD, bits 31:3 of a command word (R56). -/
def wordRsvd (w : Word64) : BitVec 29 := w.extractLsb' 3 29

/-- LEN, bits 63:32 of a command word (R56). -/
def wordLen (w : Word64) : Word32 := w.extractLsb' 32 32

/-- The command an OP value selects, with its LEN (R57); none for the reserved values 5 to 7. -/
def Instr.ofOp (op : BitVec 3) (len : Nat) : Option Instr :=
  match op.toNat with
  | 0 => some (.escape len)
  | 1 => some (.unescape len)
  | 2 => some (.checksum len)
  | 3 => some (.encodeFrame len)
  | 4 => some (.decodeFrame len)
  | _ => none

/-- `decodeCmd` of R60. LEN is read unsigned, without scaling or offset (R58). -/
def decodeCmd (w : Word64) : Except DecodeError Instr :=
  if wordRsvd w = 0 then
    match Instr.ofOp (wordOp w) (wordLen w).toNat with
    | some i => .ok i
    | none => .error .reservedOp
  else .error .reservedBits

/-- The OP value of a command (R57). -/
def Instr.op : Instr → BitVec 3
  | .escape _ => 0
  | .unescape _ => 1
  | .checksum _ => 2
  | .encodeFrame _ => 3
  | .decodeFrame _ => 4

/-- LEN as the 32-bit value CUR_LEN latches (R25, R58). -/
def Instr.lenField (i : Instr) : Word32 := BitVec.ofNat 32 i.len

/-- The command word of a command: `(LEN << 32) | OP`, with RSVD = 0 (R56, R64). -/
def encode (i : Instr) : Word64 :=
  (i.lenField.setWidth 64 <<< 32) ||| i.op.setWidth 64

/-- The decoder on a word numbered as spec/opcode_table.json numbers it; bits above `nbits` are 0. -/
def decodeTableWord (nbits w : Nat) : Option Instr :=
  match decodeCmd (BitVec.ofNat 64 (w % 2 ^ nbits)) with
  | .ok i => some i
  | .error _ => none

/-! One word for each constructor, written out from R56 and R57: LEN in bits 63:32, RSVD 0, OP in bits 2:0. -/

/-- `ESCAPE 3`: LEN = 3, OP = 0b000. -/
theorem decodeCmd_escape_word : decodeCmd 0x0000000300000000 = .ok (.escape 3) := by decide

/-- `UNESCAPE 6`: LEN = 6, OP = 0b001. -/
theorem decodeCmd_unescape_word : decodeCmd 0x0000000600000001 = .ok (.unescape 6) := by decide

/-- `CHECKSUM 5`: LEN = 5, OP = 0b010. -/
theorem decodeCmd_checksum_word : decodeCmd 0x0000000500000002 = .ok (.checksum 5) := by decide

/-- `ENCODE_FRAME 65536`: LEN = 0x10000, OP = 0b011. -/
theorem decodeCmd_encodeFrame_word : decodeCmd 0x0001000000000003 = .ok (.encodeFrame 65536) := by
  decide

/-- `DECODE_FRAME 4294967295`: LEN with every bit set, OP = 0b100. -/
theorem decodeCmd_decodeFrame_word :
    decodeCmd 0xFFFFFFFF00000004 = .ok (.decodeFrame 4294967295) := by decide

end Sys2Proof
end

