-- ==== Sys2Proof/Machine/State.lean ====
section
/-! DEFINITION. The state of the block and of its host (10_state.md), the reasons a step can stop, and the state
after reset (10_state.md R33). -/

namespace Sys2Proof.Machine

/-- PHASE (R24): waiting for a command, or executing a legal one. -/
inductive Phase where
  | idle
  | run
  deriving DecidableEq, Repr

/-- U_STATE, the state of the unescape machine (R28). -/
inductive UState where
  | normal
  | escaped
  deriving DecidableEq, Repr

/-- Every state element of the block (R16 to R31). STATUS.BUSY is a view of PHASE (R18) and STATUS[31:5] is
hardwired to 0 (R20), so neither has storage here. -/
structure Block where
  /-- STATUS.CODE, 3 bits (R16, R17). -/
  code : BitVec 3
  /-- STATUS.CMPL (R16, R19). -/
  cmpl : Bool
  /-- OUTCNT, 64 bits (R21). -/
  outcnt : Word64
  /-- CSUM, which the pseudocode calls ACC, 16 bits (R22). -/
  acc : Word16
  /-- PHASE (R24). -/
  phase : Phase
  /-- CUR_OP, 3 bits (R25). -/
  curOp : BitVec 3
  /-- CUR_LEN, 32 bits (R25). -/
  curLen : Word32
  /-- IDX, 32 bits (R25). -/
  idx : Word32
  /-- STAGE, the output staging FIFO, head first (R26). -/
  stage : List Byte
  /-- TAIL_DONE (R27). -/
  tailDone : Bool
  /-- U_STATE (R28). -/
  uState : UState
  /-- ESC_ERR (R29). -/
  escErr : Bool
  /-- DL, the delay line, oldest byte first (R30). -/
  dl : List Byte
  /-- SOF_BAD (R31). -/
  sofBad : Bool
  /-- EOF_BAD (R31). -/
  eofBad : Bool
  deriving DecidableEq, Repr

/-- One action of the host, or a turn it leaves to the block (R53, R66, R127, R130). -/
inductive HostAction where
  /-- Offer a command word: any 64-bit word, at any time (R53). -/
  | offer (w : Word64)
  /-- Push one input byte (R53). -/
  | push (b : Byte)
  /-- Begin or stop accepting output bytes (R53: the host may delay acceptance indefinitely). -/
  | accepting (yes : Bool)
  /-- Read the register of this number (R38). -/
  | readReg (n : Nat)
  /-- Assert reset (R124). -/
  | assertReset
  /-- Remove this many bytes from the head of the unconsumed input (R127, R130). -/
  | discardInput (n : Nat)
  /-- Assert which bytes the last command wrote (R66). -/
  | expectOut (bs : List Byte)
  /-- Leave one turn to the block (the free interleaving of R135 and 93_implementation_defined.md I16). -/
  | blockTurn
  /-- Poll: leave turns to the block until STATUS.CMPL = 1 (R66, R117). -/
  | poll
  deriving DecidableEq, Repr

/-- What the host has observed. -/
inductive HostNote where
  /-- The register read port returned `v` for register number `n` (R38). -/
  | register (n : Nat) (v : Word64)
  /-- Whether the last command wrote exactly `bs` (R66). -/
  | output (bs : List Byte) (holds : Bool)
  deriving DecidableEq, Repr

/-- The host's side of the interfaces (R14): not block state, and untouched by a block reset (R127). -/
structure HostSide where
  /-- Pending command words, head first (R14, R37). -/
  cmdQ : List Word64
  /-- Pending input bytes, head first (R14, R40). -/
  inQ : List Byte
  /-- Bytes already written to the output stream, oldest first (R14, R41). -/
  outStream : List Byte
  /-- Whether the output stream accepts a byte now (R41). -/
  outAccepts : Bool
  /-- What the host has observed, oldest first (model field, assumption 9). -/
  log : List HostNote
  /-- The host's coming actions and the turns it leaves to the block (model field, assumption 2). When it is
  used up, every turn is the block's (R136). -/
  script : List HostAction
  deriving DecidableEq, Repr

/-- The machine: the block and its host, the two agents of R13. -/
structure State where
  block : Block
  host : HostSide
  deriving DecidableEq, Repr

/-- Why the machine stops with a fault. The block itself has no fault (R112). -/
inductive Fault where
  /-- Raised by `blockTurn` in RUN with CUR_OP 5, 6 or 7 and nothing to emit: R74 has no row for such a
  CUR_OP, and ACCEPT never latches one (R60, R69). Safe: it only stops the model, in states no run reaches. -/
  | noHandler
  deriving DecidableEq, Repr

/-- Why the machine has no meaning for an instruction. -/
inductive Refusal where
  /-- Raised by an arm of `exec` whose instruction has no meaning yet; no arm raises it now. Safe. -/
  | notModelled (mnemonic : String)
  deriving DecidableEq, Repr

/-- The reset value of every block element: the table of R33. -/
def Block.reset : Block where
  code := 0
  cmpl := false
  outcnt := 0
  acc := 0
  phase := .idle
  curOp := 0
  curLen := 0
  idx := 0
  stage := []
  tailDone := false
  uState := .normal
  escErr := false
  dl := []
  sofBad := false
  eofBad := false

/-- The host's side at the start of a run: empty queues and no output (DEDUCED from 95_test_vectors.md L3,
assumption 4), output accepted (DESIGN CHOICE, assumption 3), no observation and no coming action
(DESIGN CHOICE, assumptions 2 and 9). -/
def HostSide.powerOn : HostSide where
  cmdQ := []
  inQ := []
  outStream := []
  outAccepts := true
  log := []
  script := []

/-- The first state of every run (R125): the block in the reset state of R33. -/
def State.reset : State where
  block := Block.reset
  host := HostSide.powerOn

end Sys2Proof.Machine
end

