-- ==== Sys2Proof/Machine/Flags.lean ====
section
/-! DEFINITION. The result codes and error kinds (60_exceptions.md R110), the flags of STATUS (10_state.md R16 to R20) and the
register read port (20_memory.md R38). -/

namespace Sys2Proof.Machine

/-- The names of the result codes (R12, R110). -/
inductive ResultCode where
  | ok
  | invalidLength
  | malformedPayload
  | invalidChecksum
  | illegalCommand
  deriving DecidableEq, Repr

/-- The value STATUS.CODE takes for each result code (R110). -/
def ResultCode.value : ResultCode → BitVec 3
  | .ok => 0
  | .invalidLength => 1
  | .malformedPayload => 2
  | .invalidChecksum => 3
  | .illegalCommand => 4

/-- The error kinds of the reference functions `unescape` and `decodeFrame` (R86, R99, R110). -/
inductive CodecError where
  | invalidLength
  | malformedPayload
  | invalidChecksum
  deriving DecidableEq, Repr

/-- The result code of an error kind (R104, R110). -/
def CodecError.code : CodecError → ResultCode
  | .invalidLength => .invalidLength
  | .malformedPayload => .malformedPayload
  | .invalidChecksum => .invalidChecksum

/-- STATUS.BUSY: 1 exactly when PHASE = RUN (R18). -/
def Block.busy (b : Block) : Bool := decide (b.phase = .run)

/-- STATUS as the host reads it (R16): CODE in bits 2:0, BUSY in bit 3, CMPL in bit 4, and zeros in 31:5. -/
def Block.status (b : Block) : Word32 :=
  b.code.setWidth 32 ||| (BitVec.ofBool b.busy).setWidth 32 <<< 3 ||| (BitVec.ofBool b.cmpl).setWidth 32 <<< 4

/-- `ReadReg(n)` of R38: the whole register, zero-extended to 64 bits; 0 for an unknown number. -/
def Block.readReg (b : Block) (n : Nat) : Word64 :=
  match n with
  | 0 => b.status.setWidth 64
  | 1 => b.outcnt
  | 2 => b.acc.setWidth 64
  | _ => 0

end Sys2Proof.Machine
end

