-- ==== Sys2Proof/Machine/Operands.lean ====
section
/-! DEFINITION. The operand forms: byte sequences and their slices (00_scope.md R9), the checksum's byte form
(20_memory.md R44), and the position of an input byte within a frame (43_frame_codec.md R101). -/

namespace Sys2Proof.Machine

/-- `dropLast2(s)` of R9: all but the last two elements, and `[]` when there are fewer than two. -/
def dropLast2 (s : List Byte) : List Byte := s.take (s.length - 2)

/-- `last2(s)` of R9: the last two elements. R9 defines it only when there are two or more; `[]` for a shorter sequence is
the model's own value (DESIGN CHOICE, assumption 15), which `decodeFrame` never reads. -/
def last2 (s : List Byte) : List Byte := if 2 ≤ s.length then s.drop (s.length - 2) else []

/-- The low byte `v[7:0]` of a 16-bit value. -/
def lowByte (v : Word16) : Byte := v.extractLsb' 0 8

/-- The high byte `v[15:8]` of a 16-bit value. -/
def highByte (v : Word16) : Byte := v.extractLsb' 8 8

/-- The byte form of a 16-bit value: low byte, then high byte (R44). -/
def byteForm (v : Word16) : List Byte := [lowByte v, highByte v]

/-- Where an input byte of DECODE_FRAME stands in its frame (R101). -/
inductive FramePos where
  | first
  | last
  | interior
  deriving DecidableEq, Repr

/-- The position of the byte consumed at IDX = `idx` in a frame of `len` bytes, tested in the order of R101: a
single byte counts as the first. -/
def framePos (idx len : Word32) : FramePos :=
  if idx = 0 then .first
  else if idx = len - 1 then .last
  else .interior

end Sys2Proof.Machine
end

