-- ==== Sys2Proof/Machine/Ops.lean ====
section
/-! DEFINITION. The named operations over the streams and the registers (20_memory.md R40, R41; 00_scope.md R10) and
the block events (40_command_lifecycle.md R69 to R73), shared by every command. -/

namespace Sys2Proof.Machine

/-! ## Streams and registers -/

/-- `stage(s)` of R10: append bytes to STAGE. -/
def Block.stageBytes (b : Block) (bs : List Byte) : Block := { b with stage := b.stage ++ bs }

/-- ACC after `accAdd`: the byte added as an unsigned number, modulo 2^16 (R91). -/
def addByte (acc : Word16) (x : Byte) : Word16 := acc + x.setWidth 16

/-- `accAdd(b)` of R91. -/
def Block.accAdd (b : Block) (x : Byte) : Block := { b with acc := addByte b.acc x }

/-- `InRead()` of R40: the head byte and the queue without it; defined only when the queue is not empty. -/
def HostSide.inRead (h : HostSide) : Option (Byte × HostSide) :=
  match h.inQ with
  | [] => none
  | x :: xs => some (x, { h with inQ := xs })

/-- `OutWrite(b)` of R41: append a byte to the output stream. -/
def HostSide.outWrite (h : HostSide) (x : Byte) : HostSide :=
  { h with outStream := h.outStream ++ [x] }

/-! ## What a command supplies -/

/-- A row of the dispatch table of R74. The four handlers act on the block alone: no handler reads or changes
the host's side. -/
structure Handlers where
  onAccept : Block → Block
  onByte : Byte → Block → Block
  onTail : Block → Block
  verdict : Block → ResultCode

/-! ## When each event is enabled -/

/-- EMIT is enabled: STAGE holds a byte and the output stream accepts one (R71). -/
def State.emitEnabled (s : State) : Bool :=
  !s.block.stage.isEmpty && s.host.outAccepts

/-- CONSUME is enabled (R70). -/
def State.consumeEnabled (s : State) : Bool :=
  decide (s.block.phase = .run) && s.block.stage.isEmpty
    && decide (s.block.idx < s.block.curLen) && !s.host.inQ.isEmpty

/-- TAIL is enabled (R72). -/
def State.tailEnabled (s : State) : Bool :=
  decide (s.block.phase = .run) && decide (s.block.idx = s.block.curLen)
    && s.block.stage.isEmpty && !s.block.tailDone

/-- COMPLETE is enabled (R73). -/
def State.completeEnabled (s : State) : Bool :=
  decide (s.block.phase = .run) && decide (s.block.idx = s.block.curLen)
    && s.block.tailDone && s.block.stage.isEmpty

/-- ACCEPT is enabled: PHASE = IDLE and the host offers a command word (R69). -/
def State.acceptEnabled (s : State) : Bool :=
  decide (s.block.phase = .idle) && !s.host.cmdQ.isEmpty

/-! ## The events -/

/-- What every ACCEPT clears, before it looks at the word (R69). PHASE, CUR_OP and CUR_LEN are kept. -/
def Block.clearForAccept (b : Block) : Block :=
  { b with
    code := 0
    cmpl := false
    outcnt := 0
    acc := 0
    stage := []
    tailDone := false
    idx := 0
    uState := .normal
    escErr := false
    dl := []
    sofBad := false
    eofBad := false }

/-- ACCEPT of a legal command (R69): clear, latch OP and LEN, enter RUN, run the command's onAccept. -/
def Block.acceptLegal (b : Block) (h : Handlers) (i : Instr) : Block :=
  h.onAccept { b.clearForAccept with curOp := i.op, curLen := i.lenField, phase := .run }

/-- A command's result is reported (R112, R113): its code is written to STATUS.CODE and CMPL is set. This is the
block's only way to report an error: it saves nothing else and changes no mode. -/
def Block.report (b : Block) (c : ResultCode) : Block := { b with code := c.value, cmpl := true }

/-- ACCEPT of an illegal command word (R69, R61): the word completes at once, PHASE stays IDLE, and CUR_OP and
CUR_LEN are unchanged. -/
def Block.acceptIllegal (b : Block) : Block := b.clearForAccept.report .illegalCommand

/-- CONSUME (R70): the byte read goes to the command's onByte, which still sees the old IDX; then IDX advances. -/
def State.consume (s : State) (h : Handlers) : State :=
  match s.host.inRead with
  | none => s
  | some (x, host) =>
    let b := h.onByte x s.block
    { block := { b with idx := b.idx + 1 }, host := host }

/-- EMIT (R71): the head of STAGE goes to the output stream, and OUTCNT counts it. -/
def State.emit (s : State) : State :=
  match s.block.stage with
  | [] => s
  | x :: xs =>
    { block := { s.block with stage := xs, outcnt := s.block.outcnt + 1 }, host := s.host.outWrite x }

/-- TAIL (R72). -/
def State.tail (s : State) (h : Handlers) : State :=
  { s with block := { h.onTail s.block with tailDone := true } }

/-- COMPLETE (R73): the verdict is reported and PHASE returns to IDLE. -/
def State.complete (s : State) (h : Handlers) : State :=
  { s with block := { s.block.report (h.verdict s.block) with phase := .idle } }

/-- The next event of a command in progress, if one is enabled; otherwise the block holds, which changes
nothing (R55, R123, R134). At most one of the four is ever enabled (R75). -/
def State.advance (s : State) (h : Handlers) : State :=
  if s.emitEnabled then s.emit
  else if s.consumeEnabled then s.consume h
  else if s.tailEnabled then s.tail h
  else if s.completeEnabled then s.complete h
  else s

/-- Command `i` is the one CUR_OP and CUR_LEN hold (R25). -/
def Block.holds (b : Block) (i : Instr) : Bool :=
  decide (b.curOp = i.op) && decide (b.curLen = i.lenField)

/-- The block's next event on behalf of command `i`, whose handlers are `h`: ACCEPT while the block is idle, the
next event while `i` is in progress, and a wait while another command is (R37: a word offered while BUSY = 1
waits). -/
def State.commandEvent (s : State) (h : Handlers) (i : Instr) : State :=
  match s.block.phase with
  | .idle => { s with block := s.block.acceptLegal h i }
  | .run => if s.block.holds i then s.advance h else s

/-- The reset event (R124): every block element takes its reset value, and the host's side is untouched (R127). -/
def State.assertReset (s : State) : State := { s with block := Block.reset }

end Sys2Proof.Machine
end

