-- ==== Sys2Proof/Machine/ChecksumUnit.lean ====
section
/-! DEFINITION. The Checksum Unit (42_checksum.md): the reference checksum and the command CHECKSUM. -/

namespace Sys2Proof.Machine

/-- `csumValue(s) = sum(s) mod 2^16` of R92. -/
def csumValue (s : List Byte) : Word16 := BitVec.ofNat 16 (s.map BitVec.toNat).sum

/-- `checksum(s)` of R92: the low byte of the sum, then its high byte. -/
def checksum (s : List Byte) : List Byte := byteForm (csumValue s)

/-- The CHECKSUM row of R74 (R95). -/
def checksumHandlers : Handlers where
  onAccept b := b
  onByte x b := b.accAdd x
  onTail b := b.stageBytes (byteForm b.acc)
  verdict _ := .ok

/-- CHECKSUM (R95). -/
def execChecksum (len : Nat) (s : State) : Host.Outcome State Fault Refusal :=
  .next (s.commandEvent checksumHandlers (.checksum len))

end Sys2Proof.Machine
end

