-- ==== Sys2Proof/Machine/Escaper.lean ====
section
/-! DEFINITION. The Byte Escaper (41_escaper.md): its primitives, and the commands ESCAPE and UNESCAPE. -/

namespace Sys2Proof.Machine

/-- `isReserved(b)` of R80. -/
def isReserved (x : Byte) : Bool :=
  decide (x = Config.sof) || decide (x = Config.eof) || decide (x = Config.esc)

/-- `escByte(b)` of R81. -/
def escByte (x : Byte) : List Byte :=
  if isReserved x then [Config.esc, x + Config.escOffset] else [x]

/-- `escape(s)` of R82. -/
def escape : List Byte → List Byte
  | [] => []
  | x :: xs => escByte x ++ escape xs

/-- What one unescape step leaves: U_STATE, ESC_ERR and the byte output, if any (R84). -/
structure UnescResult where
  uState : UState
  escErr : Bool
  out : Option Byte
  deriving DecidableEq, Repr

/-- `unescStep(st, err, b)` of R84, its lines in order. -/
def unescStep (st : UState) (err : Bool) (x : Byte) : UnescResult :=
  if err then ⟨st, true, none⟩
  else match st with
    | .normal =>
      if x = Config.esc then ⟨.escaped, false, none⟩ else ⟨.normal, false, some x⟩
    | .escaped =>
      if Config.escContLow ≤ x ∧ x ≤ Config.escContHigh
      then ⟨.normal, false, some (x - Config.escOffset)⟩
      else ⟨.escaped, true, none⟩

/-- The fold of R84 over a sequence from `(st, err)`: the state it ends in and its outputs in order. -/
def unescFold (st : UState) (err : Bool) : List Byte → UState × Bool × List Byte
  | [] => (st, err, [])
  | x :: xs =>
    let r := unescStep st err x
    let rest := unescFold r.uState r.escErr xs
    (rest.1, rest.2.1, r.out.toList ++ rest.2.2)

/-- The end check of R85: the input ended in NORMAL with no error met. -/
def unescOk (st : UState) (err : Bool) : Bool := !err && decide (st = .normal)

/-- `unescapeRun(s)` of R86: the outputs `U` and whether the sequence was well escaped. -/
def unescapeRun (s : List Byte) : List Byte × Bool :=
  let r := unescFold .normal false s
  (r.2.2, unescOk r.1 r.2.1)

/-- `unescape(s)` of R86: the unescaped sequence, or MalformedPayload when the sequence is not well escaped. -/
def unescape (s : List Byte) : Except CodecError (List Byte) :=
  if (unescapeRun s).2 then .ok (unescapeRun s).1 else .error .malformedPayload

/-- `unescVerdict()` of R85. -/
def unescVerdict (b : Block) : ResultCode :=
  if unescOk b.uState b.escErr then .ok else .malformedPayload

/-- The ESCAPE row of R74 (R88). -/
def escapeHandlers : Handlers where
  onAccept b := b
  onByte x b := b.stageBytes (escByte x)
  onTail b := b
  verdict _ := .ok

/-- UNESCAPE's onByte (R89): the step of R84, and its output staged. -/
def unescapeOnByte (x : Byte) (b : Block) : Block :=
  let r := unescStep b.uState b.escErr x
  { b with uState := r.uState, escErr := r.escErr }.stageBytes r.out.toList

/-- The UNESCAPE row of R74 (R89). -/
def unescapeHandlers : Handlers where
  onAccept b := b
  onByte := unescapeOnByte
  onTail b := b
  verdict := unescVerdict

/-- ESCAPE (R88). -/
def execEscape (len : Nat) (s : State) : Host.Outcome State Fault Refusal :=
  .next (s.commandEvent escapeHandlers (.escape len))

/-- UNESCAPE (R89). -/
def execUnescape (len : Nat) (s : State) : Host.Outcome State Fault Refusal :=
  .next (s.commandEvent unescapeHandlers (.unescape len))

end Sys2Proof.Machine
end

