-- ==== Sys2Proof/Machine/FrameCodec.lean ====
section
/-! DEFINITION. The Frame Codec (43_frame_codec.md): the reference encoder and decoder, and the commands ENCODE_FRAME
and DECODE_FRAME. -/

namespace Sys2Proof.Machine

/-! ## Encoding -/

/-- `encodeFrame(p)` of R96. -/
def encodeFrame (p : List Byte) : List Byte :=
  [Config.sof] ++ escape (p ++ checksum p) ++ [Config.eof]

/-- The ENCODE_FRAME row of R74 (R98). -/
def encodeFrameHandlers : Handlers where
  onAccept b := b.stageBytes [Config.sof]
  onByte x b := (b.accAdd x).stageBytes (escByte x)
  onTail b := b.stageBytes (escByte (lowByte b.acc) ++ escByte (highByte b.acc) ++ [Config.eof])
  verdict _ := .ok

/-- ENCODE_FRAME (R98). -/
def execEncodeFrame (len : Nat) (s : State) : Host.Outcome State Fault Refusal :=
  .next (s.commandEvent encodeFrameHandlers (.encodeFrame len))

/-! ## Decoding -/

/-- `interior(f)` of R100: the bytes strictly between the first and the last. -/
def frameInterior (f : List Byte) : List Byte := (f.drop 1).dropLast

/-- `decodeFrame(f)` of R99: its steps in order, the first failing one decides. -/
def decodeFrame (f : List Byte) : Except CodecError (List Byte) :=
  if f.length < Config.minFrame then .error .invalidLength
  else if f.head? ≠ some Config.sof ∨ f.getLast? ≠ some Config.eof then .error .malformedPayload
  else
    let u := unescapeRun (frameInterior f)
    if u.2 = false then .error .malformedPayload
    else if u.1.length < 2 then .error .invalidLength
    else if checksum (dropLast2 u.1) ≠ last2 u.1 then .error .invalidChecksum
    else .ok (dropLast2 u.1)

/-- `decodeEmitted(f)` of R100: the bytes DECODE_FRAME writes, whatever its verdict. -/
def decodeEmitted (f : List Byte) : List Byte := dropLast2 (unescapeRun (frameInterior f)).1

/-- `dlPush(u)` of R102: the oldest of three held bytes leaves the delay line, is added to ACC and staged. -/
def Block.dlPush (b : Block) (u : Byte) : Block :=
  match b.dl ++ [u] with
  | [x, y, z] => ({ b with dl := [y, z] }.accAdd x).stageBytes [x]
  | d => { b with dl := d }

/-- DECODE_FRAME's positional handler (R101). -/
def decodeOnByte (x : Byte) (b : Block) : Block :=
  match framePos b.idx b.curLen with
  | .first => { b with sofBad := decide (x ≠ Config.sof) }
  | .last => { b with eofBad := decide (x ≠ Config.eof) }
  | .interior =>
    let r := unescStep b.uState b.escErr x
    let b' := { b with uState := r.uState, escErr := r.escErr }
    match r.out with
    | none => b'
    | some u => b'.dlPush u

/-- `verdict_decode()` of R103, its lines in order. Line 5 compares DL with ACC byte by byte; where it is reached, DL
holds two bytes. -/
def decodeVerdict (b : Block) : ResultCode :=
  if b.curLen.toNat < Config.minFrame then .invalidLength
  else if b.sofBad || b.eofBad then .malformedPayload
  else if b.escErr || decide (b.uState = .escaped) then .malformedPayload
  else if b.dl.length < 2 then .invalidLength
  else if b.dl[0]? ≠ some (lowByte b.acc) ∨ b.dl[1]? ≠ some (highByte b.acc) then .invalidChecksum
  else .ok

/-- The DECODE_FRAME row of R74 (R104). -/
def decodeFrameHandlers : Handlers where
  onAccept b := b
  onByte := decodeOnByte
  onTail b := b
  verdict := decodeVerdict

/-- DECODE_FRAME (R104). -/
def execDecodeFrame (len : Nat) (s : State) : Host.Outcome State Fault Refusal :=
  .next (s.commandEvent decodeFrameHandlers (.decodeFrame len))

end Sys2Proof.Machine
end

