-- ==== Sys2Proof/Machine/Dispatch.lean ====
section
/-! DEFINITION. One arm per command: the block's next event on that command's behalf (40_command_lifecycle.md R74). -/

namespace Sys2Proof.Machine

def exec (i : Instr) (s : State) : Host.Outcome State Fault Refusal :=
  match i with
  | .escape len => Sys2Proof.Machine.execEscape len s
  | .unescape len => Sys2Proof.Machine.execUnescape len s
  | .checksum len => Sys2Proof.Machine.execChecksum len s
  | .encodeFrame len => Sys2Proof.Machine.execEncodeFrame len s
  | .decodeFrame len => Sys2Proof.Machine.execDecodeFrame len s

end Sys2Proof.Machine
end

