-- ==== Sys2Proof/Machine/Scheduler.lean ====
section
/-! DEFINITION. Who moves next, and what a turn of each agent does: the block's one enabled event
(40_command_lifecycle.md R69 to R75), or one action of the host (20_memory.md R53). -/

namespace Sys2Proof.Machine

/-- The command CUR_OP and CUR_LEN hold (R25). -/
def Block.current (b : Block) : Option Instr := Instr.ofOp b.curOp b.curLen.toNat

/-- ACCEPT takes the head word of the command queue (R37, R69); `s` is the state without that word. -/
def State.acceptWord (s : State) (w : Word64) : Host.Outcome State Fault Refusal :=
  match decodeCmd w with
  | .ok i => exec i s
  | .error _ => .next { s with block := s.block.acceptIllegal }

/-- One turn of the block: its next event, or nothing while it holds (R55, R134). -/
def blockTurn (s : State) : Host.Outcome State Fault Refusal :=
  match s.block.phase with
  | .idle =>
    match s.host.cmdQ with
    | w :: ws => { s with host := { s.host with cmdQ := ws } }.acceptWord w
    | [] => .next (if s.emitEnabled then s.emit else s)
  | .run =>
    match s.block.current with
    | some i => exec i s
    | none => if s.emitEnabled then .next s.emit else .fault .noHandler

/-- The bytes the current or last command has written (R66): the last OUTCNT bytes of the output stream (R21). After a reset
and before the next ACCEPT, OUTCNT is 0 (R124) although bytes already written stay written (R126), and R66 does not say
what the last command then is: here the answer is `[]` (DESIGN CHOICE, assumption 9). -/
def State.lastOut (s : State) : List Byte :=
  s.host.outStream.drop (s.host.outStream.length - s.block.outcnt.toNat)

/-- Append to what the host has observed. -/
def HostSide.note (h : HostSide) (n : HostNote) : HostSide := { h with log := h.log ++ [n] }

/-- What one action of the host does (R53). A turn left to the block is not an action of the host. -/
def State.hostAct (s : State) (a : HostAction) : State :=
  match a with
  | .offer w => { s with host := { s.host with cmdQ := s.host.cmdQ ++ [w] } }
  | .push x => { s with host := { s.host with inQ := s.host.inQ ++ [x] } }
  | .accepting yes => { s with host := { s.host with outAccepts := yes } }
  | .readReg n => { s with host := s.host.note (.register n (s.block.readReg n)) }
  | .assertReset => s.assertReset
  | .discardInput n => { s with host := { s.host with inQ := s.host.inQ.drop n } }
  | .expectOut bs => { s with host := s.host.note (.output bs (decide (s.lastOut = bs))) }
  | .blockTurn => s
  | .poll => s

/-- The host's poll ends when STATUS.CMPL = 1, whatever words are still queued (R66, R117). -/
def State.pollDone (s : State) : Bool := s.block.cmpl

/-- The state with its script replaced. -/
def State.withScript (s : State) (script : List HostAction) : State :=
  { s with host := { s.host with script := script } }

/-- One turn: the host's, if its next action is its own, and otherwise the block's (assumption 2). A polling host looks at
STATUS.CMPL before each turn it leaves to the block (DESIGN CHOICE, assumption 9). When the script
is used up every turn is the block's, so an enabled block event is eventually taken (R136). -/
def turn (s : State) : Host.Outcome State Fault Refusal :=
  match s.host.script with
  | [] => blockTurn s
  | .blockTurn :: rest => blockTurn (s.withScript rest)
  | .poll :: rest => if s.pollDone then .next (s.withScript rest) else blockTurn s
  | .offer w :: rest => .next ((s.withScript rest).hostAct (.offer w))
  | .push x :: rest => .next ((s.withScript rest).hostAct (.push x))
  | .accepting yes :: rest => .next ((s.withScript rest).hostAct (.accepting yes))
  | .readReg n :: rest => .next ((s.withScript rest).hostAct (.readReg n))
  | .assertReset :: rest => .next ((s.withScript rest).hostAct .assertReset)
  | .discardInput n :: rest => .next ((s.withScript rest).hostAct (.discardInput n))
  | .expectOut bs :: rest => .next ((s.withScript rest).hostAct (.expectOut bs))

/-- The state in which the next turn takes the word `w` from the command port: the block idle, `w` first in the
queue, and the turn the block's (assumption 8). -/
def State.offerFirst (s : State) (w : Word64) : State :=
  { block := { s.block with phase := .idle }
    host := { s.host with cmdQ := w :: s.host.cmdQ, script := [] } }

end Sys2Proof.Machine
end

