-- ==== Sys2Proof/Machine/Step.lean ====
section
/-! DEFINITION. The machine's step: one turn of one agent, and where a step takes its next command from. -/

namespace Sys2Proof.Machine

/-- One atomic event of the machine (R43, R48): a turn of the host or of the block. -/
def step (s : State) : Host.Outcome State Fault Refusal := turn s

/-- The command word with these bits, offered so that the very next step accepts it (assumption 8). -/
def State.withFetchWord (s : State) (nbits w : Nat) : State :=
  s.offerFirst (BitVec.ofNat 64 (w % 2 ^ nbits))

end Sys2Proof.Machine
end

