-- ==== Sys2Proof/Machine/Transaction.lean ====
section
/-! DEFINITION. The transaction level (40_command_lifecycle.md R68): each command as a pure function of its input bytes.
The event level of Machine/Ops.lean is the machine; this is the level its results are compared with (R76). -/

namespace Sys2Proof.Machine

/-- The triple `(out, code, csum)` of R68. -/
structure TxResult where
  out : List Byte
  code : ResultCode
  csum : Word16
  deriving DecidableEq, Repr

/-- `TxEscape(s)` of R88. -/
def txEscape (s : List Byte) : TxResult := ⟨escape s, .ok, 0⟩

/-- `TxUnescape(s)` of R89. -/
def txUnescape (s : List Byte) : TxResult :=
  ⟨(unescapeRun s).1, if (unescapeRun s).2 then .ok else .malformedPayload, 0⟩

/-- `TxChecksum(s)` of R95. -/
def txChecksum (s : List Byte) : TxResult := ⟨checksum s, .ok, csumValue s⟩

/-- `TxEncodeFrame(p)` of R98. -/
def txEncodeFrame (p : List Byte) : TxResult := ⟨encodeFrame p, .ok, csumValue p⟩

/-- The code of a decode result (R104). -/
def decodeCode : Except CodecError (List Byte) → ResultCode
  | .ok _ => .ok
  | .error e => e.code

/-- `TxDecodeFrame(f)` of R104. -/
def txDecodeFrame (f : List Byte) : TxResult :=
  ⟨decodeEmitted f, decodeCode (decodeFrame f), csumValue (decodeEmitted f)⟩

/-- `Tx` of a legal command on its input bytes (R68). R68 defines it only where there are LEN of them; for any other number
the function still answers, without looking at LEN (DESIGN CHOICE, assumption 18). -/
def tx (i : Instr) (s : List Byte) : TxResult :=
  match i with
  | .escape _ => txEscape s
  | .unescape _ => txUnescape s
  | .checksum _ => txChecksum s
  | .encodeFrame _ => txEncodeFrame s
  | .decodeFrame _ => txDecodeFrame s

/-- `Tx(w, s)` of R68 on a command word. R68 defines it only where `s` has LEN bytes, and none for an illegal word; for any
other `s` the function still answers (DESIGN CHOICE, assumption 18). -/
def txWord (w : Word64) (s : List Byte) : TxResult :=
  match decodeCmd w with
  | .ok i => tx i s
  | .error _ => ⟨[], .illegalCommand, 0⟩

end Sys2Proof.Machine
end

