-- ==== Sys2Proof/Machine/Assembler.lean ====
section
/-! DEFINITION. The assembler syntax for command programs (30_encoding.md R64 to R66): lines, what the host does for
each, and the text form. Text is a list of characters. -/

namespace Sys2Proof.Machine

/-- The five mnemonics of R57. -/
inductive Mnemonic where
  | escape
  | unescape
  | checksum
  | encodeFrame
  | decodeFrame
  deriving DecidableEq, Repr

/-- The command a mnemonic names, with its LEN (R57, R64). -/
def Mnemonic.instr (m : Mnemonic) (len : Nat) : Instr :=
  match m with
  | .escape => .escape len
  | .unescape => .unescape len
  | .checksum => .checksum len
  | .encodeFrame => .encodeFrame len
  | .decodeFrame => .decodeFrame len

/-- A line of a command program. -/
inductive Line where
  /-- `MNEMONIC LEN` (R64). -/
  | command (m : Mnemonic) (len : Nat)
  /-- The pseudo-instruction: a mnemonic with its input bytes in braces (R65). -/
  | commandWith (m : Mnemonic) (bs : List Byte)
  /-- `in b0 b1 ...` (R64). -/
  | input (bs : List Byte)
  /-- `.word 0x...` (R64; of any word, assumption 17). -/
  | word (w : Word64)
  /-- `wait` (R66). -/
  | wait
  /-- `rd STATUS`, `rd OUTCNT`, `rd CSUM`, by register number (R66, R38). -/
  | rd (n : Nat)
  /-- `expect out b0 ...` (R66). -/
  | expectOut (bs : List Byte)
  /-- `reset` (R66). -/
  | reset
  /-- A line with nothing but a comment (R64). -/
  | blank
  deriving DecidableEq, Repr

/-- LEN of a command line is in `0 .. 2^32 - 1` (R64); the bytes of a pseudo-instruction are counted likewise (R65). -/
def Line.wellFormed : Line → Bool
  | .command m len => (m.instr len).wellFormed
  | .commandWith m bs => (m.instr bs.length).wellFormed
  | .input _ | .word _ | .wait | .rd _ | .expectOut _ | .reset | .blank => true

/-- The expansion of the one pseudo-instruction (R65): the command line with LEN = n, then exactly those n bytes,
and no input line when there are none. -/
def Line.expand : Line → List Line
  | .commandWith m [] => [.command m 0]
  | .commandWith m (x :: xs) => [.command m (xs.length + 1), .input (x :: xs)]
  | .command m len => [.command m len]
  | .input bs => [.input bs]
  | .word w => [.word w]
  | .wait => [.wait]
  | .rd n => [.rd n]
  | .expectOut bs => [.expectOut bs]
  | .reset => [.reset]
  | .blank => [.blank]

/-- What the host does for a line: a command line offers its word and an input line pushes its bytes (R64); the host
observation lines put nothing on the command port (R66). A pseudo-instruction is its expansion (R65). Before the first
poll of a `wait` the host leaves the block one turn, in which an idle block accepts an offered word and so clears the CMPL
of the command before (DESIGN CHOICE of the interleaving, assumption 16). -/
def Line.actions : Line → List HostAction
  | .command m len => [.offer (encode (m.instr len))]
  | .commandWith m bs => .offer (encode (m.instr bs.length)) :: bs.map .push
  | .input bs => bs.map .push
  | .word w => [.offer w]
  | .wait => [.blockTurn, .poll]
  | .rd n => [.readReg n]
  | .expectOut bs => [.expectOut bs]
  | .reset => [.assertReset]
  | .blank => []

/-- The host's script for a program: its lines in order. R64 to R66 do not say when the block moves between two lines, and
93_implementation_defined.md I16 leaves the interleaving free; here the block gets no turn between lines, but at `wait`
(one turn, then those of the poll) and after the last (DESIGN CHOICE, assumption 16). Another interleaving of the same program, such as that of
95_test_vectors.md P5, is this script with `HostAction.blockTurn` put in. -/
def assemble (p : List Line) : List HostAction := p.flatMap Line.actions

/-! ## Text -/

/-- The value of a hexadecimal digit; both letter cases are read (assumption 10). -/
def hexDigit (c : Char) : Option Nat :=
  let n := c.toNat
  if 48 ≤ n ∧ n ≤ 57 then some (n - 48)
  else if 65 ≤ n ∧ n ≤ 70 then some (n - 55)
  else if 97 ≤ n ∧ n ≤ 102 then some (n - 87)
  else none

/-- The value of a decimal digit. -/
def decDigit (c : Char) : Option Nat :=
  let n := c.toNat
  if 48 ≤ n ∧ n ≤ 57 then some (n - 48) else none

/-- Read digits in a base, most significant first, from the value read so far. -/
def readDigits (base : Nat) (digit : Char → Option Nat) (acc : Nat) : List Char → Option Nat
  | [] => some acc
  | c :: cs =>
    match digit c with
    | some d => readDigits base digit (acc * base + d) cs
    | none => none

/-- A number: decimal, or hexadecimal after `0x` (R64). -/
def readNumber : List Char → Option Nat
  | [] => none
  | ['0', 'x'] => none
  | '0' :: 'x' :: cs => readDigits 16 hexDigit 0 cs
  | cs => readDigits 10 decDigit 0 cs

/-- A byte: exactly two hexadecimal digits (R64). -/
def readByte : List Char → Option Byte
  | [a, b] =>
    match readDigits 16 hexDigit 0 [a, b] with
    | some n => some (BitVec.ofNat 8 n)
    | none => none
  | _ => none

/-- A sequence of bytes, one token each. -/
def readBytes : List (List Char) → Option (List Byte)
  | [] => some []
  | t :: ts =>
    match readByte t, readBytes ts with
    | some x, some xs => some (x :: xs)
    | _, _ => none

/-- The word of a `.word` line: `0x` and exactly 16 hexadecimal digits. R64 gives the form for an illegal word and is silent on
a legal one written so; any word is read, and a legal one is offered like any other (DESIGN CHOICE, assumption 17). -/
def readWord : List Char → Option Word64
  | '0' :: 'x' :: cs =>
    if cs.length = 16 then
      match readDigits 16 hexDigit 0 cs with
      | some n => some (BitVec.ofNat 64 n)
      | none => none
    else none
  | _ => none

/-- The two braces of the pseudo-instruction (R65). -/
def openBrace : Char := Char.ofNat 0x7B

/-- The closing brace of the pseudo-instruction (R65). -/
def closeBrace : Char := Char.ofNat 0x7D

/-- The token read so far, if any. -/
def flushToken (cur : List Char) : List (List Char) := if cur = [] then [] else [cur]

/-- The tokens of a line: separated by blanks, a brace a token by itself, a comment from `;` to the end (R64). -/
def tokens (cur : List Char) : List Char → List (List Char)
  | [] => flushToken cur
  | c :: cs =>
    if c = ';' then flushToken cur
    else if c = ' ' ∨ c = '\t' then flushToken cur ++ tokens [] cs
    else if c = openBrace ∨ c = closeBrace then flushToken cur ++ [c] :: tokens [] cs
    else tokens (cur ++ [c]) cs

/-- The mnemonics' spellings (R57). -/
def readMnemonic (t : List Char) : Option Mnemonic :=
  if t = "ESCAPE".toList then some .escape
  else if t = "UNESCAPE".toList then some .unescape
  else if t = "CHECKSUM".toList then some .checksum
  else if t = "ENCODE_FRAME".toList then some .encodeFrame
  else if t = "DECODE_FRAME".toList then some .decodeFrame
  else none

/-- The registers' spellings after `rd` (R66), by number (R38). -/
def readRegister (t : List Char) : Option Nat :=
  if t = "STATUS".toList then some 0
  else if t = "OUTCNT".toList then some 1
  else if t = "CSUM".toList then some 2
  else none

/-- The line, where it is well formed. -/
def Line.checked (l : Line) : Option Line := if l.wellFormed then some l else none

/-- The operand of a command line: a LEN (R64), or the bytes between braces (R65). A line with 2^32 bytes or more in braces is
not read, as a LEN of 2^32 or more is not: R65 says nothing of it, and the command line it expands to would have no LEN of
R64's range (DEDUCED, assumption 10). -/
def readOperand (m : Mnemonic) : List (List Char) → Option Line
  | [t] =>
    match readNumber t with
    | some n => (Line.command m n).checked
    | none => none
  | t :: ts =>
    if t = [openBrace] ∧ ts.getLast? = some [closeBrace] then
      match readBytes ts.dropLast with
      | some bs => (Line.commandWith m bs).checked
      | none => none
    else none
  | [] => none

/-- A line of text; none where it is not of the syntax of R64 to R66. -/
def readLine (text : List Char) : Option Line :=
  match tokens [] text with
  | [] => some .blank
  | t :: ts =>
    if t = "wait".toList then if ts = [] then some .wait else none
    else if t = "reset".toList then if ts = [] then some .reset else none
    else if t = "in".toList then (readBytes ts).map .input
    else if t = ".word".toList then
      match ts with
      | [w] => (readWord w).map .word
      | _ => none
    else if t = "rd".toList then
      match ts with
      | [r] => (readRegister r).map .rd
      | _ => none
    else if t = "expect".toList then
      match ts with
      | o :: bs => if o = "out".toList then (readBytes bs).map .expectOut else none
      | [] => none
    else
      match readMnemonic t with
      | some m => readOperand m ts
      | none => none

end Sys2Proof.Machine
end

