-- ==== Sys2Proof/Safety.lean ====
section
/-! DEFINITION. What a safe run is, in the terms claims use: the invariant of 10_state.md R34, the bound on OUTCNT
(R21), output validity (70_reset_and_hazards.md R131), a stuck machine (R129, R133) and the host's duties. -/

namespace Sys2Proof.Machine

/-- The states R34 describes, with what R19, R22, R25, R72 and R113 add about a command in progress. -/
structure Block.Inv (b : Block) : Prop where
  /-- PHASE = IDLE implies STAGE = `[]`. -/
  idle_stage : b.phase = .idle → b.stage = []
  /-- `|STAGE| <= 5`. -/
  stage_cap : b.stage.length ≤ Config.stageCap
  /-- `|DL| <= 2`. -/
  dl_cap : b.dl.length ≤ 2
  /-- `IDX <= CUR_LEN`. -/
  idx_le : b.idx ≤ b.curLen
  /-- PHASE = IDLE and CMPL = 0: no command has been accepted since reset, so every element still has its reset
  value (DEDUCED, assumption 12). -/
  fresh : b.phase = .idle → b.cmpl = false → b = Block.reset
  /-- ESC_ERR = 1 or U_STATE = ESCAPED only under UNESCAPE or DECODE_FRAME. -/
  unesc_op : b.escErr = true ∨ b.uState = .escaped → b.curOp = 1 ∨ b.curOp = 4
  /-- DL, SOF_BAD and EOF_BAD are in use only under DECODE_FRAME. -/
  decode_op : b.dl ≠ [] ∨ b.sofBad = true ∨ b.eofBad = true → b.curOp = 4
  /-- STATUS.CODE <= 4. -/
  code_le : b.code ≤ 4
  /-- CUR_OP is one of the five operations (R25, R60). -/
  op_le : b.curOp ≤ 4
  /-- While BUSY = 1, CODE reads 0 and CMPL is 0 (R113, R19). -/
  busy_code : b.phase = .run → b.code = 0 ∧ b.cmpl = false
  /-- TAIL runs only when all input has been consumed (R72). -/
  tail_idx : b.tailDone = true → b.idx = b.curLen
  /-- ESCAPE and UNESCAPE leave CSUM 0 (R22). -/
  csum_zero : b.curOp ≤ 1 → b.acc = 0

/-- The machine's invariant: the block's (R34). The host's side is free. -/
def State.Inv (s : State) : Prop := s.block.Inv

/-- The bytes written and staged so far never exceed two for each byte consumed, one at ACCEPT and five at TAIL
(R21, R77, R83, R96). -/
def Block.OutBounded (b : Block) : Prop :=
  b.outcnt.toNat + b.stage.length
    ≤ 2 * b.idx.toNat + 1 + (if b.tailDone then Config.stageCap else 0)

/-- The machine waits for ever: its step changes nothing (R129, R133). -/
def State.Stuck (s : State) : Prop := step s = .next s

/-- The bytes UNESCAPE or DECODE_FRAME wrote are a result: CMPL = 1 and CODE = OK (R131). -/
def State.outputValid (s : State) : Bool := s.block.cmpl && decide (s.block.code = ResultCode.ok.value)

/-- The host's duties for one command word and its input bytes (R53, R129, R130, R133): exactly LEN bytes for a legal
word and none for an illegal one, and every output byte accepted. The word is at the command port, the bytes are
next in the input queue (`more` follows them), and the host leaves every turn to the block. -/
structure State.Supplied (s : State) (w : Word64) (input more : List Byte) : Prop where
  idle : s.block.phase = .idle
  port : s.host.cmdQ.head? = some w
  bytes : s.host.inQ = input ++ more
  exact_length : ∀ i, decodeCmd w = .ok i → input.length = i.len
  no_input_if_illegal : ∀ e, decodeCmd w = .error e → input = []
  accepts : s.host.outAccepts = true
  quiet : s.host.script = []

/-- The input bytes an action of the host adds to the input queue (R53). -/
def HostAction.pushed : HostAction → List Byte
  | .push x => [x]
  | .offer _ | .accepting _ | .readReg _ | .assertReset | .discardInput _ | .expectOut _ | .blockTurn | .poll => []

/-- The action leaves a command in progress to run: it is no reset and removes no input. -/
def HostAction.keepsCommand : HostAction → Bool
  | .assertReset | .discardInput _ => false
  | .offer _ | .push _ | .accepting _ | .readReg _ | .expectOut _ | .blockTurn | .poll => true

/-- The input bytes the block has not consumed: those queued, then those the host has yet to push. -/
def State.inputToCome (s : State) : List Byte := s.host.inQ ++ s.host.script.flatMap HostAction.pushed

/-! ## When each event of a command is ready: premises on the state alone -/

/-- Command `i` is in progress (R24, R25). -/
structure State.Running (s : State) (i : Instr) : Prop where
  run : s.block.phase = .run
  op : s.block.curOp = i.op
  len : s.block.curLen = i.lenField

/-- CONSUME of the byte `x` is enabled for command `i`, and `xs` follows in the input queue (R70). -/
structure State.ConsumeReady (s : State) (i : Instr) (x : Byte) (xs : List Byte) : Prop
    extends State.Running s i where
  stage : s.block.stage = []
  idx : s.block.idx < s.block.curLen
  input : s.host.inQ = x :: xs

/-- EMIT of the byte `x` is enabled for command `i`, and `xs` follows in STAGE (R71). -/
structure State.EmitReady (s : State) (i : Instr) (x : Byte) (xs : List Byte) : Prop
    extends State.Running s i where
  stage : s.block.stage = x :: xs
  accepts : s.host.outAccepts = true

/-- TAIL is enabled for command `i` (R72). -/
structure State.TailReady (s : State) (i : Instr) : Prop extends State.Running s i where
  idx : s.block.idx = s.block.curLen
  stage : s.block.stage = []
  tailDone : s.block.tailDone = false

/-- COMPLETE is enabled for command `i` (R73). -/
structure State.CompleteReady (s : State) (i : Instr) : Prop extends State.Running s i where
  idx : s.block.idx = s.block.curLen
  stage : s.block.stage = []
  tailDone : s.block.tailDone = true

/-- The rows of R74 as a function of the command. -/
def handlersOf : Instr → Handlers
  | .escape _ => escapeHandlers
  | .unescape _ => unescapeHandlers
  | .checksum _ => checksumHandlers
  | .encodeFrame _ => encodeFrameHandlers
  | .decodeFrame _ => decodeFrameHandlers

/-- The number of block events of a command (R78): `1 + LEN + |out| + 1 + 1` for a legal word, 1 for an illegal one. -/
def eventCount (w : Word64) (input : List Byte) : Nat :=
  match decodeCmd w with
  | .ok i => 1 + i.len + (txWord w input).out.length + 1 + 1
  | .error _ => 1

end Sys2Proof.Machine
end

