-- ==== Sys2Proof/Certificates/Slice0/Obligations.lean ====
section
/-! DEFINITION. The statements for the provers, in the order of OBLIGATIONS.json. Each docstring names the rules of spec/
it formalises. -/

open Sys2Proof Sys2Proof.Machine

/-! ## Encoding -/

/-- Words written out from R56 and R57 decode to their commands, and words with a reserved OP or a reserved bit are
illegal. -/
def Obligations.WrittenOutWordsDecode : Prop :=
  decodeCmd 0x0000000300000000 = .ok (.escape 3)
  ∧ decodeCmd 0x0000000600000001 = .ok (.unescape 6)
  ∧ decodeCmd 0x0000000500000002 = .ok (.checksum 5)
  ∧ decodeCmd 0x0000000500000003 = .ok (.encodeFrame 5)
  ∧ decodeCmd 0x0000000A00000004 = .ok (.decodeFrame 10)
  ∧ decodeCmd 0x0000000000000005 = .error .reservedOp
  ∧ decodeCmd 0x0000000300000008 = .error .reservedBits

/-- Decoding the encoding of a command whose LEN fits its field gives the command back, for every command and every
value of LEN (R56 to R58, R64). -/
def Obligations.DecodeOfEncodeIsIdentity : Prop :=
  ∀ i : Instr, i.wellFormed = true → decodeCmd (encode i) = .ok i

/-- A legal word is the encoding of the command it decodes to, and that command's LEN fits its field: no two legal
words mean the same command (R56, R60, R63). -/
def Obligations.EncodeOfDecodeIsIdentity : Prop :=
  ∀ (w : Word64) (i : Instr), decodeCmd w = .ok i → i.wellFormed = true ∧ encode i = w

/-- R60: the decoder's three lines, in order, on all words, with the slices of R56 written out. -/
def Obligations.DecoderIsTotalByFields : Prop :=
  ∀ w : Word64,
    (w.extractLsb' 3 29 ≠ 0 → ∃ e, decodeCmd w = .error e)
    ∧ (w.extractLsb' 3 29 = 0 → 5 ≤ (w.extractLsb' 0 3).toNat → ∃ e, decodeCmd w = .error e)
    ∧ (w.extractLsb' 3 29 = 0 → (w.extractLsb' 0 3).toNat < 5 →
        ∃ i, decodeCmd w = .ok i ∧ i.op = w.extractLsb' 0 3 ∧ i.len = (w.extractLsb' 32 32).toNat)

/-! ## A step runs the decoded command -/

/-- When the block is idle, the turn is the block's and the head of the command port decodes to `i`, the step is
`exec i` on the state without that word (R37, R69). -/
def Obligations.StepAcceptsOfferedCommand : Prop :=
  ∀ (s : State) (w : Word64) (ws : List Word64) (i : Instr),
    s.block.phase = .idle → s.host.script = [] → s.host.cmdQ = w :: ws → decodeCmd w = .ok i →
    step s = exec i { s with host := { s.host with cmdQ := ws } }

/-- While a command is in progress and the turn is the block's, the step is `exec` of the command CUR_OP and CUR_LEN
hold (R67, R74). -/
def Obligations.StepRunsCommandInProgress : Prop :=
  ∀ (s : State) (i : Instr),
    s.Running i → i.wellFormed = true → s.host.script = [] → step s = exec i s

/-- A turn the script leaves to the block, by name or while the host polls, is the step the block takes when the script
is used up; so what is stated of `script = []` holds of every such turn (93 I16; model's choice, assumption 2). A poll goes
on while CMPL = 0 and ends when CMPL = 1, whatever words are still queued (R66; when the host looks is the model's choice,
assumption 9). -/
def Obligations.ScriptedTurnIsStepOfBlock : Prop :=
  ∀ (s t : State) (rest : List HostAction), step (s.withScript []) = .next t →
    (s.host.script = .blockTurn :: rest → step s = .next (t.withScript rest))
    ∧ (s.host.script = .poll :: rest → s.block.cmpl = false → step s = .next (t.withScript (.poll :: rest)))
    ∧ (s.host.script = .poll :: rest → s.block.cmpl = true → step s = .next (s.withScript rest))

/-! ## The illegal word -/

/-- R61: a word is illegal exactly when OP is 5, 6 or 7 or RSVD is not 0; it completes at ACCEPT with
ILLEGAL_COMMAND, consumes no input byte, writes no output byte, and leaves OUTCNT and CSUM 0. PHASE stays IDLE, and
CUR_OP and CUR_LEN are unchanged (R69). -/
def Obligations.IllegalWordCompletesAtAccept : Prop :=
  ∀ w : Word64,
    ((∃ e, decodeCmd w = .error e) ↔ 5 ≤ (w.extractLsb' 0 3).toNat ∨ w.extractLsb' 3 29 ≠ 0)
    ∧ ∀ (s : State) (ws : List Word64) (e : DecodeError),
      s.block.phase = .idle → s.host.script = [] → s.host.cmdQ = w :: ws → decodeCmd w = .error e →
      step s = .next
        { block :=
            { code := 4, cmpl := true, outcnt := 0, acc := 0, phase := .idle
              curOp := s.block.curOp, curLen := s.block.curLen, idx := 0, stage := []
              tailDone := false, uState := .normal, escErr := false, dl := []
              sofBad := false, eofBad := false }
          host := { s.host with cmdQ := ws } }

/-! ## Reset -/

/-- R33: the reset value of every block element, at power-on (R125) and after the reset event (R124); STATUS, with BUSY and
the hardwired bits, reads 0. -/
def Obligations.ResetSetsEveryBlockElement : Prop :=
  (∀ s : State, s.assertReset.block = State.reset.block)
  ∧ State.reset.block =
    { code := 0, cmpl := false, outcnt := 0, acc := 0, phase := .idle, curOp := 0, curLen := 0
      idx := 0, stage := [], tailDone := false, uState := .normal, escErr := false, dl := []
      sofBad := false, eofBad := false }
  ∧ State.reset.block.status = 0

/-- R124: the host may assert reset at any time; it is one event, and after it PHASE = IDLE and the three registers
read 0. The host's side keeps its pending words, unconsumed input and written output (R127). -/
def Obligations.ResetEventAbandonsCommand : Prop :=
  ∀ (s : State) (rest : List HostAction), s.host.script = .assertReset :: rest →
    ∃ t, step s = .next t
      ∧ t.block =
        { code := 0, cmpl := false, outcnt := 0, acc := 0, phase := .idle, curOp := 0, curLen := 0
          idx := 0, stage := [], tailDone := false, uState := .normal, escErr := false, dl := []
          sofBad := false, eofBad := false }
      ∧ t.block.readReg 0 = 0 ∧ t.block.readReg 1 = 0 ∧ t.block.readReg 2 = 0
      ∧ t.host = { s.host with script := rest }

/-! ## The registers the host reads -/

/-- R18 and R20, and the places of CODE and CMPL (R16): the fields of STATUS in every state. -/
def Obligations.StatusFields : Prop :=
  ∀ b : Block,
    b.status.extractLsb' 0 3 = b.code
    ∧ b.status.extractLsb' 3 1 = (if b.phase = .run then 1 else 0)
    ∧ b.status.extractLsb' 4 1 = (if b.cmpl then 1 else 0)
    ∧ b.status.extractLsb' 5 27 = 0

/-- The register read port (R38), by register number; an unknown number reads 0. A read of any number returns the current
value and has no effect on the block or the streams (R23). That the host appends what it read to its log is the model's
choice (assumption 9). -/
def Obligations.RegisterReadPort : Prop :=
  ∀ (b : Block) (n : Nat),
    (b.readReg 0).toNat = b.status.toNat
    ∧ b.readReg 1 = b.outcnt
    ∧ (b.readReg 2).toNat = b.acc.toNat
    ∧ (n ≠ 0 → n ≠ 1 → n ≠ 2 → b.readReg n = 0)
    ∧ ∀ s : State, s.block = b →
        s.hostAct (.readReg n) =
          { block := b, host := { s.host with log := s.host.log ++ [.register n (b.readReg n)] } }

/-- What each action of the host but reset does (R53, R38, R66, R127): a word or byte goes to the end of its queue;
acceptance is switched, and holds until switched again (the model's choice, assumption 3); leftover input is removed from
the head (the model's reading of R127 and R130, assumption 11); a register read and an expected output append what the host
observed to its log and change nothing else (the log, and where the expected bytes are looked for, are the model's choice,
assumption 9). No action of the host but reset changes the block (R23). -/
def Obligations.HostActionEffects : Prop :=
  (∀ (s : State) (rest : List HostAction),
    (∀ w, s.host.script = .offer w :: rest →
      step s = .next { s with host := { s.host with script := rest, cmdQ := s.host.cmdQ ++ [w] } })
    ∧ (∀ x, s.host.script = .push x :: rest →
      step s = .next { s with host := { s.host with script := rest, inQ := s.host.inQ ++ [x] } })
    ∧ (∀ y, s.host.script = .accepting y :: rest →
      step s = .next { s with host := { s.host with script := rest, outAccepts := y } })
    ∧ (∀ n, s.host.script = .discardInput n :: rest →
      step s = .next { s with host := { s.host with script := rest, inQ := s.host.inQ.drop n } })
    ∧ (∀ n, s.host.script = .readReg n :: rest →
      step s = .next
        { s with host :=
          { s.host with script := rest, log := s.host.log ++ [.register n (s.block.readReg n)] } })
    ∧ (∀ bs, s.host.script = .expectOut bs :: rest →
      step s = .next
        { s with host :=
          { s.host with script := rest, log := s.host.log ++ [.output bs (decide (s.lastOut = bs))] } }))
  ∧ ∀ (s : State) (a : HostAction), a ≠ .assertReset → (s.hostAct a).block = s.block

/-- While BUSY = 1 the CODE field of STATUS reads 0, even when a check has already failed inside the block (R113). -/
def Obligations.CodeReadsZeroWhileBusy : Prop :=
  ∀ b : Block, b.Inv → b.phase = .run →
    b.status.extractLsb' 0 3 = 0 ∧ b.status.extractLsb' 4 1 = 0 ∧ b.status.extractLsb' 3 1 = 1

/-! ## ACCEPT of each command -/

/-- ACCEPT of every command: everything an earlier command left is cleared, OP and LEN are latched, PHASE becomes RUN, and
ENCODE_FRAME alone stages its start delimiter (R69, R74, R26). -/
def Obligations.AcceptLatchesCommand : Prop :=
  ∀ (s : State) (i : Instr), s.block.phase = .idle →
    exec i s = .next
      { s with block :=
        { code := 0, cmpl := false, outcnt := 0, acc := 0, phase := .run
          curOp := i.op, curLen := BitVec.ofNat 32 i.len, idx := 0
          stage := if i = .encodeFrame i.len then [0x01] else []
          tailDone := false, uState := .normal, escErr := false, dl := []
          sofBad := false, eofBad := false } }

/-- No element of the block's state influences a later command: ACCEPT gives the same next state whatever an earlier
command left in the block (R32). -/
def Obligations.AcceptForgetsEarlierCommands : Prop :=
  ∀ (s : State) (b : Block) (i : Instr), s.block.phase = .idle → b.phase = .idle →
    exec i s = exec i { s with block := b } ∧ ∃ t, exec i s = .next t

/-! ## The Byte Escaper -/

/-- R80 and R81: which bytes are reserved, and the escape of every byte value. -/
def Obligations.ByteEscapeTable : Prop :=
  ∀ x : Byte,
    (isReserved x = true ↔ x = 0x01 ∨ x = 0x02 ∨ x = 0x03)
    ∧ escByte x = (if x = 0x01 ∨ x = 0x02 ∨ x = 0x03 then [0x03, x + 0x03] else [x])
    ∧ escByte 0x01 = [0x03, 0x04] ∧ escByte 0x02 = [0x03, 0x05] ∧ escByte 0x03 = [0x03, 0x06]

/-- R84: the unescape step, line by line, and how the event machine applies it. -/
def Obligations.UnescapeStepTable : Prop :=
  ∀ (st : UState) (x : Byte),
    unescStep st true x = ⟨st, true, none⟩
    ∧ unescStep .normal false 0x03 = ⟨.escaped, false, none⟩
    ∧ (x ≠ 0x03 → unescStep .normal false x = ⟨.normal, false, some x⟩)
    ∧ (4 ≤ x.toNat ∧ x.toNat ≤ 6 → unescStep .escaped false x = ⟨.normal, false, some (x - 0x03)⟩)
    ∧ (¬(4 ≤ x.toNat ∧ x.toNat ≤ 6) → unescStep .escaped false x = ⟨.escaped, true, none⟩)
    ∧ ∀ b : Block, unescapeOnByte x b =
        { b with
          uState := (unescStep b.uState b.escErr x).uState
          escErr := (unescStep b.uState b.escErr x).escErr
          stage := b.stage ++ (unescStep b.uState b.escErr x).out.toList }

/-- ESCAPE consumes a byte and stages its escape, and changes nothing else (R88, R70). -/
def Obligations.EscapeConsumesByte : Prop :=
  ∀ (s : State) (len : Nat) (x : Byte) (xs : List Byte), s.ConsumeReady (.escape len) x xs →
    exec (.escape len) s = .next
      { block := { s.block with stage := escByte x, idx := s.block.idx + 1 }
        host := { s.host with inQ := xs } }

/-- UNESCAPE consumes a byte: the unescape step's state is kept and its output, if any, is staged; nothing else changes
(R89, R70). -/
def Obligations.UnescapeConsumesByte : Prop :=
  ∀ (s : State) (len : Nat) (x : Byte) (xs : List Byte), s.ConsumeReady (.unescape len) x xs →
    exec (.unescape len) s = .next
      { block :=
          { s.block with
            uState := (unescStep s.block.uState s.block.escErr x).uState
            escErr := (unescStep s.block.uState s.block.escErr x).escErr
            stage := (unescStep s.block.uState s.block.escErr x).out.toList
            idx := s.block.idx + 1 }
        host := { s.host with inQ := xs } }

/-- COMPLETE of UNESCAPE: MALFORMED_PAYLOAD exactly when ESC_ERR = 1 or U_STATE = ESCAPED, otherwise OK (R85, R73). -/
def Obligations.UnescapeCompletesWithVerdict : Prop :=
  ∀ (s : State) (len : Nat), s.CompleteReady (.unescape len) →
    exec (.unescape len) s = .next
      { s with block :=
        { s.block with
          code := if s.block.escErr = true ∨ s.block.uState = .escaped then 2 else 0
          cmpl := true
          phase := .idle } }

/-! ## The Checksum Unit -/

/-- R91: the byte is added as an unsigned number modulo 2^16, a carry out of bit 15 is discarded, and no flag records
it: ACC alone changes. -/
def Obligations.ChecksumAddWraps : Prop :=
  ∀ (b : Block) (x : Byte),
    (b.accAdd x).acc.toNat = (b.acc.toNat + x.toNat) % 65536
    ∧ b.accAdd x = { b with acc := (b.accAdd x).acc }

/-- CHECKSUM consumes a byte: ACC grows by it, nothing is staged, nothing else changes (R95, R70). -/
def Obligations.ChecksumConsumesByte : Prop :=
  ∀ (s : State) (len : Nat) (x : Byte) (xs : List Byte), s.ConsumeReady (.checksum len) x xs →
    exec (.checksum len) s = .next
      { block := { s.block with acc := addByte s.block.acc x, idx := s.block.idx + 1 }
        host := { s.host with inQ := xs } }

/-- TAIL of CHECKSUM stages the low byte of ACC, then its high byte (R95, R44, R72). -/
def Obligations.ChecksumTailStagesLittleEndian : Prop :=
  ∀ (s : State) (len : Nat), s.TailReady (.checksum len) →
    exec (.checksum len) s = .next
      { s with block :=
        { s.block with
          stage := [BitVec.ofNat 8 s.block.acc.toNat, BitVec.ofNat 8 (s.block.acc.toNat / 256)]
          tailDone := true } }

/-! ## The Frame Codec -/

/-- ENCODE_FRAME consumes a byte: ACC grows by it and its escape is staged; nothing else changes (R98, R70). -/
def Obligations.EncodeFrameConsumesByte : Prop :=
  ∀ (s : State) (len : Nat) (x : Byte) (xs : List Byte), s.ConsumeReady (.encodeFrame len) x xs →
    exec (.encodeFrame len) s = .next
      { block :=
          { s.block with
            acc := addByte s.block.acc x, stage := escByte x, idx := s.block.idx + 1 }
        host := { s.host with inQ := xs } }

/-- TAIL of ENCODE_FRAME stages the escaped checksum, low byte first, and the end delimiter (R98, R72). -/
def Obligations.EncodeFrameTailStagesChecksum : Prop :=
  ∀ (s : State) (len : Nat), s.TailReady (.encodeFrame len) →
    exec (.encodeFrame len) s = .next
      { s with block :=
        { s.block with
          stage := escByte (BitVec.ofNat 8 s.block.acc.toNat)
            ++ escByte (BitVec.ofNat 8 (s.block.acc.toNat / 256)) ++ [0x02]
          tailDone := true } }

/-- DECODE_FRAME consumes the first byte of a frame: it only records whether that byte is not 0x01; a single byte is
treated as the first. It consumes the last byte, at IDX = CUR_LEN - 1 when that is not 0: it only records whether that
byte is not 0x02 (R101, R70). -/
def Obligations.DecodeFrameChecksDelimiters : Prop :=
  ∀ (s : State) (len : Nat) (x : Byte) (xs : List Byte), s.ConsumeReady (.decodeFrame len) x xs →
    (s.block.idx = 0 →
      exec (.decodeFrame len) s = .next
        { block := { s.block with sofBad := decide (x ≠ 0x01), idx := 1 }
          host := { s.host with inQ := xs } })
    ∧ (s.block.idx ≠ 0 → s.block.idx.toNat + 1 = s.block.curLen.toNat →
      exec (.decodeFrame len) s = .next
        { block := { s.block with eofBad := decide (x ≠ 0x02), idx := s.block.idx + 1 }
          host := { s.host with inQ := xs } })

/-- DECODE_FRAME consumes an interior byte that the unescape step does not turn into an output: only U_STATE, ESC_ERR
and IDX change (R101, R84, R70). -/
def Obligations.DecodeFrameConsumesSilentByte : Prop :=
  ∀ (s : State) (len : Nat) (x : Byte) (xs : List Byte), s.ConsumeReady (.decodeFrame len) x xs →
    s.block.idx ≠ 0 → s.block.idx.toNat + 1 ≠ s.block.curLen.toNat →
    (unescStep s.block.uState s.block.escErr x).out = none →
    exec (.decodeFrame len) s = .next
      { block :=
          { s.block with
            uState := (unescStep s.block.uState s.block.escErr x).uState
            escErr := (unescStep s.block.uState s.block.escErr x).escErr
            idx := s.block.idx + 1 }
        host := { s.host with inQ := xs } }

/-- DECODE_FRAME consumes an interior byte whose unescaped value is `u`: `u` enters the delay line; when that held two
bytes, the older one leaves it, is added to ACC and is staged (R101, R102, R70). -/
def Obligations.DecodeFrameDelaysOutput : Prop :=
  ∀ (s : State) (len : Nat) (x : Byte) (xs : List Byte) (u : Byte), s.ConsumeReady (.decodeFrame len) x xs →
    s.block.idx ≠ 0 → s.block.idx.toNat + 1 ≠ s.block.curLen.toNat →
    (unescStep s.block.uState s.block.escErr x).out = some u →
    (s.block.dl.length < 2 →
      exec (.decodeFrame len) s = .next
        { block :=
            { s.block with
              uState := (unescStep s.block.uState s.block.escErr x).uState
              escErr := (unescStep s.block.uState s.block.escErr x).escErr
              dl := s.block.dl ++ [u]
              idx := s.block.idx + 1 }
          host := { s.host with inQ := xs } })
    ∧ ∀ old young, s.block.dl = [old, young] →
      exec (.decodeFrame len) s = .next
        { block :=
            { s.block with
              uState := (unescStep s.block.uState s.block.escErr x).uState
              escErr := (unescStep s.block.uState s.block.escErr x).escErr
              dl := [young, u]
              acc := addByte s.block.acc old
              stage := [old]
              idx := s.block.idx + 1 }
          host := { s.host with inQ := xs } }

/-- COMPLETE of DECODE_FRAME: the first true line of R103 decides the code (R103, R73). -/
def Obligations.DecodeFrameCompletesWithVerdict : Prop :=
  ∀ (s : State) (len : Nat), s.CompleteReady (.decodeFrame len) →
    exec (.decodeFrame len) s = .next
      { s with block :=
        { s.block with
          code :=
            if s.block.curLen.toNat < 4 then 1
            else if s.block.sofBad = true ∨ s.block.eofBad = true then 2
            else if s.block.escErr = true ∨ s.block.uState = .escaped then 2
            else if s.block.dl.length < 2 then 1
            else if s.block.dl.take 2 ≠ [BitVec.ofNat 8 s.block.acc.toNat, BitVec.ofNat 8 (s.block.acc.toNat / 256)]
              then 3
            else 0
          cmpl := true
          phase := .idle } }

/-- After any sequence `u` of unescaped bytes has gone into an empty delay line, it holds the last two of them (all of
them when there are fewer), the others have been staged in order, and ACC has grown by their sum (R102). -/
def Obligations.DelayLineHoldsLastTwo : Prop :=
  ∀ (b : Block) (u : List Byte), b.dl = [] →
    u.foldl Block.dlPush b =
      { b with
        dl := u.drop (u.length - 2)
        acc := b.acc + csumValue (u.take (u.length - 2))
        stage := b.stage ++ u.take (u.length - 2) }

/-! ## Events every command shares -/

/-- EMIT: the head of STAGE goes to the end of the output stream and OUTCNT counts it; nothing else changes (R71). -/
def Obligations.EmitWritesHeadOfStage : Prop :=
  ∀ (s : State) (i : Instr) (x : Byte) (xs : List Byte), s.EmitReady i x xs →
    exec i s = .next
      { block := { s.block with stage := xs, outcnt := s.block.outcnt + 1 }
        host := { s.host with outStream := s.host.outStream ++ [x] } }

/-- TAIL of ESCAPE, UNESCAPE and DECODE_FRAME stages nothing and only sets TAIL_DONE (R72, R74). -/
def Obligations.TailOfSilentCommands : Prop :=
  ∀ (s : State) (i : Instr), s.TailReady i →
    (∃ n, i = .escape n ∨ i = .unescape n ∨ i = .decodeFrame n) →
    exec i s = .next { s with block := { s.block with tailDone := true } }

/-- COMPLETE of ESCAPE, CHECKSUM and ENCODE_FRAME reports OK (R73, R88, R95, R98). -/
def Obligations.CompleteOfUnfailingCommands : Prop :=
  ∀ (s : State) (i : Instr), s.CompleteReady i →
    (∃ n, i = .escape n ∨ i = .checksum n ∨ i = .encodeFrame n) →
    exec i s = .next { s with block := { s.block with code := 0, cmpl := true, phase := .idle } }

/-- Waiting (R55, R134; that a hold is a next state is the model's reading, assumption 5): a command in progress holds, and loses nothing, while STAGE has a byte that the output stream does not accept, and
while it needs an input byte that has not come; a word offered while BUSY = 1 waits at the command port; and an idle
block with no word offered holds. -/
def Obligations.BlockHoldsWhileWaiting : Prop :=
  (∀ (s : State) (i : Instr), s.Running i →
    (s.block.stage ≠ [] → s.host.outAccepts = false → exec i s = .next s)
    ∧ (s.block.stage = [] → s.block.idx < s.block.curLen → s.host.inQ = [] → exec i s = .next s))
  ∧ (∀ s t : State, s.block.phase = .run → s.host.script = [] → step s = .next t → t.host.cmdQ = s.host.cmdQ)
  ∧ ∀ s : State, s.Inv → s.block.phase = .idle → s.host.script = [] → s.host.cmdQ = [] → step s = .next s

/-! ## Frames -/

/-- What a command leaves of the host's side: the command port, acceptance, the host's log and script are unchanged; at
most the head of the input is consumed; at most the head of STAGE is appended to the output (R14, R40, R41, R47). -/
def Obligations.CommandFrameOnHostSide : Prop :=
  ∀ (i : Instr) (s t : State), exec i s = .next t →
    t.host.cmdQ = s.host.cmdQ ∧ t.host.outAccepts = s.host.outAccepts
    ∧ t.host.log = s.host.log ∧ t.host.script = s.host.script
    ∧ (t.host.inQ = s.host.inQ ∨ ∃ x, s.host.inQ = x :: t.host.inQ)
    ∧ (t.host.outStream = s.host.outStream
      ∨ ∃ x xs, s.block.stage = x :: xs ∧ t.host.outStream = s.host.outStream ++ [x])

/-- What a command in progress leaves of the block: CUR_OP and CUR_LEN always; CSUM under ESCAPE and UNESCAPE; U_STATE
and ESC_ERR but under UNESCAPE and DECODE_FRAME; DL, SOF_BAD and EOF_BAD but under DECODE_FRAME (R22, R25, R34, R35). -/
def Obligations.CommandFrameOnBlock : Prop :=
  ∀ (i : Instr) (s t : State), s.block.phase = .run → exec i s = .next t →
    t.block.curOp = s.block.curOp ∧ t.block.curLen = s.block.curLen
    ∧ ((∃ n, i = .escape n ∨ i = .unescape n) → t.block.acc = s.block.acc)
    ∧ ((∃ n, i = .escape n ∨ i = .checksum n ∨ i = .encodeFrame n) →
        t.block.uState = s.block.uState ∧ t.block.escErr = s.block.escErr)
    ∧ ((∀ n, i ≠ .decodeFrame n) →
        t.block.dl = s.block.dl ∧ t.block.sofBad = s.block.sofBad ∧ t.block.eofBad = s.block.eofBad)

/-- A byte once written is never withdrawn, and a step writes at most one (R41, R43, R126). -/
def Obligations.OutputStreamOnlyGrows : Prop :=
  ∀ s t : State, step s = .next t →
    ∃ bs, t.host.outStream = s.host.outStream ++ bs ∧ bs.length ≤ 1

/-! ## Invariants and the events -/

/-- The invariant of R34, with the clauses the model adds from R19, R22, R25, R72 and R113 (assumptions 6 and 12), holds at
reset. -/
def Obligations.InvariantHoldsAtReset : Prop := State.reset.Inv

/-- Every step, of the host or of the block, keeps the invariant of R34 and the clauses the model adds to it
(assumptions 6 and 12). -/
def Obligations.EveryStepKeepsInvariant : Prop :=
  ∀ s t : State, s.Inv → step s = .next t → t.Inv

/-- In every state that meets the invariant, every step answers a next state. A wait is held and not faulted (R129, R134), and
that a hold is a next state is the model's reading (assumption 5); the model's own fault, of states no run reaches
(assumption 6), cannot happen. -/
def Obligations.StepNeverStops : Prop :=
  ∀ s : State, s.Inv → ∃ t, step s = .next t

/-- At most one of the five block events is enabled in any state that meets the invariant (R75). -/
def Obligations.AtMostOneEventEnabled : Prop :=
  ∀ s : State, s.Inv →
    [s.acceptEnabled, s.consumeEnabled, s.emitEnabled, s.tailEnabled, s.completeEnabled].count true ≤ 1

/-- When the turn is the block's, the machine is stuck exactly when no block event is enabled (R55, R75, R134; a stuck
machine is a step that changes nothing, assumption 5). -/
def Obligations.StuckExactlyWhenNothingEnabled : Prop :=
  ∀ s : State, s.Inv → s.host.script = [] →
    (s.Stuck ↔ s.acceptEnabled = false ∧ s.consumeEnabled = false ∧ s.emitEnabled = false
      ∧ s.tailEnabled = false ∧ s.completeEnabled = false)

/-- The bound on the bytes a command writes is kept by every step, and OUTCNT never wraps: a step that writes a byte
raises it by one as a number (R21). -/
def Obligations.OutcntNeverWraps : Prop :=
  (∀ s t : State, s.Inv → s.block.OutBounded → step s = .next t → t.block.OutBounded)
  ∧ ∀ s t : State, s.Inv → s.block.OutBounded → step s = .next t →
      t.host.outStream.length = s.host.outStream.length + 1 →
      t.block.outcnt.toNat = s.block.outcnt.toNat + 1

/-- Host timing does not matter to an event that is already enabled: offering a word or pushing a byte before it or
after it gives the same state (R75, R48). -/
def Obligations.SupplyCommutesWithBlockEvent : Prop :=
  ∀ (s t : State) (a : HostAction), s.Inv → ((∃ w, a = .offer w) ∨ ∃ x, a = .push x) →
    blockTurn s = .next t → t ≠ s → blockTurn (s.hostAct a) = .next (t.hostAct a)

/-! ## The event level agrees with the transaction level -/

/-- R76 with the count of R78: from any idle block whose host has supplied a command word and exactly its input, the
run of `eventCount` block events reaches completion. The bytes written are `Tx(w, s).out`, CODE and CSUM are those of
`Tx`, OUTCNT is the number of bytes written, and the host's side is otherwise unchanged. -/
def Obligations.RunAgreesWithTransaction : Prop :=
  ∀ (s : State) (w : Word64) (input more : List Byte), s.Supplied w input more →
    ∃ t, Sys2Proof.core.run (eventCount w input) s = .next t
      ∧ t.host = { s.host with
          cmdQ := s.host.cmdQ.tail, inQ := more
          outStream := s.host.outStream ++ (txWord w input).out }
      ∧ t.block.phase = .idle ∧ t.block.cmpl = true
      ∧ t.block.code = (txWord w input).code.value
      ∧ t.block.acc = (txWord w input).csum
      ∧ t.block.outcnt = BitVec.ofNat 64 (txWord w input).out.length

/-- R76 under any timing of the host (R48, R75): after ACCEPT of a legal command, whatever turns the host takes before,
between and after the block's events, pushing input late or in pieces, withholding acceptance, reading registers, offering
more words, if the command completes then it consumed its LEN bytes in order and its output, CODE, CSUM and OUTCNT are
those of `Tx`. The host only leaves reset and the removal of input alone. -/
def Obligations.AgreementUnderAnyHostTiming : Prop :=
  ∀ (s a t : State) (i : Instr) (n : Nat), i.wellFormed = true → s.block.phase = .idle → exec i s = .next a →
    (∀ x ∈ s.host.script, x.keepsCommand = true) →
    Sys2Proof.core.run n a = .next t → t.block.phase = .idle →
    (∀ (k : Nat) (u : State), k < n → Sys2Proof.core.run k a = .next u → u.block.phase = .run) →
    ∃ input, input.length = i.len
      ∧ s.inputToCome = input ++ t.inputToCome
      ∧ t.host.outStream = s.host.outStream ++ (tx i input).out
      ∧ t.block.cmpl = true
      ∧ t.block.code = (tx i input).code.value
      ∧ t.block.acc = (tx i input).csum
      ∧ t.block.outcnt = BitVec.ofNat 64 (tx i input).out.length

/-- What the host sees of a completed command: the last OUTCNT bytes of the output stream are the command's output, and
they are a valid result exactly when the transaction's code is OK (R66, R131, R76; where the host finds those bytes is the
model's reading, assumption 9). -/
def Obligations.HostSeesLastCommandsOutput : Prop :=
  ∀ (s t : State) (w : Word64) (input more : List Byte), s.Supplied w input more →
    Sys2Proof.core.run (eventCount w input) s = .next t →
    t.lastOut = (txWord w input).out
    ∧ (t.outputValid = true ↔ (txWord w input).code = .ok)

/-- R78: a command does not complete before its last event. After fewer events than `eventCount` of a legal word, but at
least one, BUSY = 1 and CMPL = 0. -/
def Obligations.CommandIsBusyUntilItsLastEvent : Prop :=
  ∀ (s : State) (w : Word64) (input more : List Byte) (i : Instr) (k : Nat),
    s.Supplied w input more → decodeCmd w = .ok i → 0 < k → k < eventCount w input →
    ∃ t, Sys2Proof.core.run k s = .next t ∧ t.block.phase = .run ∧ t.block.cmpl = false

/-- The codes each command can end with (R111), at the transaction level, and that each of them occurs. That `tx` also
answers for input of another length than LEN is the model's choice (assumption 18). -/
def Obligations.CodesEachCommandEndsWith : Prop :=
  (∀ n s, (tx (.escape n) s).code = .ok ∧ (tx (.checksum n) s).code = .ok ∧ (tx (.encodeFrame n) s).code = .ok)
  ∧ (∀ n s, (tx (.unescape n) s).code = .ok ∨ (tx (.unescape n) s).code = .malformedPayload)
  ∧ (∀ n s, (tx (.decodeFrame n) s).code ≠ .illegalCommand)
  ∧ (∀ w s e, decodeCmd w = .error e → (txWord w s).code = .illegalCommand)
  ∧ (∀ c, c = ResultCode.ok ∨ c = .malformedPayload → ∃ s, (tx (.unescape s.length) s).code = c)
  ∧ (∀ c, c ≠ ResultCode.illegalCommand → ∃ s, (tx (.decodeFrame s.length) s).code = c)

/-! ## Properties of the transaction functions -/

/-- R83: the four properties of `escape`. -/
def Obligations.EscapeProperties : Prop :=
  ∀ s : List Byte,
    ((escape s).length = s.length + s.countP isReserved
      ∧ s.length ≤ (escape s).length ∧ (escape s).length ≤ 2 * s.length)
    ∧ (0x01 ∉ escape s ∧ 0x02 ∉ escape s)
    ∧ (∀ k : Nat, (escape s)[k]? = some 0x03 →
        ∃ before x after c, s = before ++ x :: after ∧ isReserved x = true ∧ k = (escape before).length
          ∧ (escape s)[k + 1]? = some c ∧ c = x + 0x03 ∧ 4 ≤ c.toNat ∧ c.toNat ≤ 6)
    ∧ ∀ t : List Byte, escape (s ++ t) = escape s ++ escape t

/-- R87: unescaping is the exact left inverse of `escape`, for the run and for `unescape` (R86). -/
def Obligations.UnescapeInvertsEscape : Prop :=
  ∀ s : List Byte, unescapeRun (escape s) = (s, true) ∧ unescape (escape s) = .ok s

/-- R93: the byte-at-a-time accumulator computes the reference checksum. -/
def Obligations.IncrementalChecksumAgrees : Prop :=
  ∀ s : List Byte, s.foldl addByte 0 = csumValue s

/-- R94, properties 1, 2, 4 and 5: the order of the bytes and appended zero bytes do not matter, one changed byte always
does, and two changed bytes may not. -/
def Obligations.ChecksumSensitivity : Prop :=
  (∀ s t : List Byte, s.Perm t → checksum s = checksum t)
  ∧ (∀ (s : List Byte) (n : Nat), checksum (s ++ List.replicate n 0) = checksum s)
  ∧ (∀ (p q : List Byte) (x y : Byte), x ≠ y → csumValue (p ++ x :: q) ≠ csumValue (p ++ y :: q))
  ∧ checksum [0x01, 0x00] = checksum [0x00, 0x01]

/-- R97: the shape of every encoded frame. -/
def Obligations.EncodedFrameShape : Prop :=
  ∀ p : List Byte,
    (encodeFrame p).head? = some 0x01 ∧ (encodeFrame p).getLast? = some 0x02
    ∧ 4 ≤ (encodeFrame p).length
    ∧ 0x01 ∉ frameInterior (encodeFrame p) ∧ 0x02 ∉ frameInterior (encodeFrame p)
    ∧ ∀ k : Nat, (frameInterior (encodeFrame p))[k]? = some 0x03 →
        ∃ c, (frameInterior (encodeFrame p))[k + 1]? = some c ∧ 4 ≤ c.toNat ∧ c.toNat ≤ 6

/-- R107: decoding an encoded frame gives the payload back, for every payload; so does DECODE_FRAME of what ENCODE_FRAME
writes, with CODE = OK. -/
def Obligations.FrameRoundTrip : Prop :=
  ∀ p : List Byte,
    decodeFrame (encodeFrame p) = .ok p
    ∧ txDecodeFrame (txEncodeFrame p).out = ⟨p, .ok, csumValue p⟩

/-- R108: a frame whose payload differs in exactly one byte from the one its checksum was made of is rejected with
InvalidChecksum; a flip of a raw frame byte need not be, by the rule's example. -/
def Obligations.TamperedPayloadIsRejected : Prop :=
  (∀ (before after : List Byte) (x y : Byte), x ≠ y →
    decodeFrame ([0x01] ++ escape ((before ++ y :: after) ++ checksum (before ++ x :: after)) ++ [0x02])
      = .error .invalidChecksum)
  ∧ decodeFrame [0x01, 0x00, 0x00, 0x00, 0x02] = .ok [0x00]
  ∧ decodeFrame [0x01, 0x03, 0x00, 0x00, 0x02] = .error .malformedPayload

/-- R106: exactly the delimited sequences whose interior unescapes to a payload and its checksum are accepted; every
encoded frame is, and so is a frame with raw reserved bytes inside. -/
def Obligations.AcceptedFrames : Prop :=
  (∀ f p : List Byte, decodeFrame f = .ok p ↔
    ∃ t, f = [0x01] ++ t ++ [0x02] ∧ unescape t = .ok (p ++ checksum p))
  ∧ (∀ p, decodeFrame (encodeFrame p) = .ok p)
  ∧ decodeFrame [0x01, 0x01, 0x01, 0x00, 0x02] = .ok [0x01]

/-- R109: boundary rejection. -/
def Obligations.BoundaryRejection : Prop :=
  ∀ f : List Byte,
    (f.length < 4 → decodeFrame f = .error .invalidLength)
    ∧ (4 ≤ f.length → f.head? ≠ some 0x01 ∨ f.getLast? ≠ some 0x02 → decodeFrame f = .error .malformedPayload)

/-! ## The assembler -/

/-- R65: the pseudo-instruction does what its expansion does, and the expansion of a line holds none. -/
def Obligations.PseudoInstructionIsItsExpansion : Prop :=
  ∀ l : Line, assemble l.expand = l.actions ∧ ∀ m bs, Line.commandWith m bs ∉ l.expand
end

