-- ==== Sys2Proof/Laws/Assembler.lean ====
section
/-! SUPPORT. What the assembler's reader answers (R64, R65). -/

namespace Sys2Proof.Machine

/-- A checked line is the line itself, well formed. -/
theorem Line.checked_eq_some {l m : Line} : l.checked = some m ↔ l = m ∧ m.wellFormed = true := by
  unfold Line.checked
  split
  · next h =>
    constructor
    · rintro ⟨⟩
      exact ⟨rfl, h⟩
    · rintro ⟨rfl, _⟩
      rfl
  · next h =>
    constructor
    · intro e
      cases e
    · rintro ⟨rfl, e⟩
      exact absurd e h

/-- Every command line the reader answers has a LEN, or a number of bytes, that fits 32 bits. -/
theorem readOperand_wellFormed {m : Mnemonic} {ts : List (List Char)} {l : Line} (h : readOperand m ts = some l) :
    l.wellFormed = true := by
  unfold readOperand at h
  split at h
  · split at h
    · exact (Line.checked_eq_some.1 h).2
    · cases h
  · split at h
    · split at h
      · exact (Line.checked_eq_some.1 h).2
      · cases h
    · cases h
  · cases h

end Sys2Proof.Machine
end

