-- ==== Sys2Proof/Laws/Config.lean ====
section
/-! SUPPORT. The numbers behind the named constants, for `simp` and `omega`. -/

namespace Sys2Proof.Config

@[simp] theorem minFrame_eq : minFrame = 4 := rfl

@[simp] theorem stageCap_eq : stageCap = 5 := rfl

@[simp] theorem lenBound_eq : lenBound = 4294967296 := rfl

end Sys2Proof.Config
end

