-- ==== Sys2Proof/Laws/State.lean ====
section
/-! SUPPORT. One lemma per field per update of the state, true by unfolding, so that no later proof unfolds a record
update. -/

namespace Sys2Proof.Machine

/-! ### stage(s) -/

@[simp] theorem Block.stageBytes_code (b : Block) (bs : List Byte) : (b.stageBytes bs).code = b.code := rfl
@[simp] theorem Block.stageBytes_cmpl (b : Block) (bs : List Byte) : (b.stageBytes bs).cmpl = b.cmpl := rfl
@[simp] theorem Block.stageBytes_outcnt (b : Block) (bs : List Byte) : (b.stageBytes bs).outcnt = b.outcnt := rfl
@[simp] theorem Block.stageBytes_acc (b : Block) (bs : List Byte) : (b.stageBytes bs).acc = b.acc := rfl
@[simp] theorem Block.stageBytes_phase (b : Block) (bs : List Byte) : (b.stageBytes bs).phase = b.phase := rfl
@[simp] theorem Block.stageBytes_curOp (b : Block) (bs : List Byte) : (b.stageBytes bs).curOp = b.curOp := rfl
@[simp] theorem Block.stageBytes_curLen (b : Block) (bs : List Byte) : (b.stageBytes bs).curLen = b.curLen := rfl
@[simp] theorem Block.stageBytes_idx (b : Block) (bs : List Byte) : (b.stageBytes bs).idx = b.idx := rfl
@[simp] theorem Block.stageBytes_stage (b : Block) (bs : List Byte) : (b.stageBytes bs).stage = b.stage ++ bs := rfl
@[simp] theorem Block.stageBytes_tailDone (b : Block) (bs : List Byte) : (b.stageBytes bs).tailDone = b.tailDone := rfl
@[simp] theorem Block.stageBytes_uState (b : Block) (bs : List Byte) : (b.stageBytes bs).uState = b.uState := rfl
@[simp] theorem Block.stageBytes_escErr (b : Block) (bs : List Byte) : (b.stageBytes bs).escErr = b.escErr := rfl
@[simp] theorem Block.stageBytes_dl (b : Block) (bs : List Byte) : (b.stageBytes bs).dl = b.dl := rfl
@[simp] theorem Block.stageBytes_sofBad (b : Block) (bs : List Byte) : (b.stageBytes bs).sofBad = b.sofBad := rfl
@[simp] theorem Block.stageBytes_eofBad (b : Block) (bs : List Byte) : (b.stageBytes bs).eofBad = b.eofBad := rfl

/-! ### accAdd(b) -/

@[simp] theorem Block.accAdd_code (b : Block) (x : Byte) : (b.accAdd x).code = b.code := rfl
@[simp] theorem Block.accAdd_cmpl (b : Block) (x : Byte) : (b.accAdd x).cmpl = b.cmpl := rfl
@[simp] theorem Block.accAdd_outcnt (b : Block) (x : Byte) : (b.accAdd x).outcnt = b.outcnt := rfl
@[simp] theorem Block.accAdd_acc (b : Block) (x : Byte) : (b.accAdd x).acc = addByte b.acc x := rfl
@[simp] theorem Block.accAdd_phase (b : Block) (x : Byte) : (b.accAdd x).phase = b.phase := rfl
@[simp] theorem Block.accAdd_curOp (b : Block) (x : Byte) : (b.accAdd x).curOp = b.curOp := rfl
@[simp] theorem Block.accAdd_curLen (b : Block) (x : Byte) : (b.accAdd x).curLen = b.curLen := rfl
@[simp] theorem Block.accAdd_idx (b : Block) (x : Byte) : (b.accAdd x).idx = b.idx := rfl
@[simp] theorem Block.accAdd_stage (b : Block) (x : Byte) : (b.accAdd x).stage = b.stage := rfl
@[simp] theorem Block.accAdd_tailDone (b : Block) (x : Byte) : (b.accAdd x).tailDone = b.tailDone := rfl
@[simp] theorem Block.accAdd_uState (b : Block) (x : Byte) : (b.accAdd x).uState = b.uState := rfl
@[simp] theorem Block.accAdd_escErr (b : Block) (x : Byte) : (b.accAdd x).escErr = b.escErr := rfl
@[simp] theorem Block.accAdd_dl (b : Block) (x : Byte) : (b.accAdd x).dl = b.dl := rfl
@[simp] theorem Block.accAdd_sofBad (b : Block) (x : Byte) : (b.accAdd x).sofBad = b.sofBad := rfl
@[simp] theorem Block.accAdd_eofBad (b : Block) (x : Byte) : (b.accAdd x).eofBad = b.eofBad := rfl

/-! ### A result reported -/

@[simp] theorem Block.report_code (b : Block) (c : ResultCode) : (b.report c).code = c.value := rfl
@[simp] theorem Block.report_cmpl (b : Block) (c : ResultCode) : (b.report c).cmpl = true := rfl
@[simp] theorem Block.report_outcnt (b : Block) (c : ResultCode) : (b.report c).outcnt = b.outcnt := rfl
@[simp] theorem Block.report_acc (b : Block) (c : ResultCode) : (b.report c).acc = b.acc := rfl
@[simp] theorem Block.report_phase (b : Block) (c : ResultCode) : (b.report c).phase = b.phase := rfl
@[simp] theorem Block.report_curOp (b : Block) (c : ResultCode) : (b.report c).curOp = b.curOp := rfl
@[simp] theorem Block.report_curLen (b : Block) (c : ResultCode) : (b.report c).curLen = b.curLen := rfl
@[simp] theorem Block.report_idx (b : Block) (c : ResultCode) : (b.report c).idx = b.idx := rfl
@[simp] theorem Block.report_stage (b : Block) (c : ResultCode) : (b.report c).stage = b.stage := rfl
@[simp] theorem Block.report_tailDone (b : Block) (c : ResultCode) : (b.report c).tailDone = b.tailDone := rfl
@[simp] theorem Block.report_uState (b : Block) (c : ResultCode) : (b.report c).uState = b.uState := rfl
@[simp] theorem Block.report_escErr (b : Block) (c : ResultCode) : (b.report c).escErr = b.escErr := rfl
@[simp] theorem Block.report_dl (b : Block) (c : ResultCode) : (b.report c).dl = b.dl := rfl
@[simp] theorem Block.report_sofBad (b : Block) (c : ResultCode) : (b.report c).sofBad = b.sofBad := rfl
@[simp] theorem Block.report_eofBad (b : Block) (c : ResultCode) : (b.report c).eofBad = b.eofBad := rfl

/-! ### What ACCEPT clears -/

@[simp] theorem Block.clearForAccept_code (b : Block) : (b.clearForAccept).code = 0 := rfl
@[simp] theorem Block.clearForAccept_cmpl (b : Block) : (b.clearForAccept).cmpl = false := rfl
@[simp] theorem Block.clearForAccept_outcnt (b : Block) : (b.clearForAccept).outcnt = 0 := rfl
@[simp] theorem Block.clearForAccept_acc (b : Block) : (b.clearForAccept).acc = 0 := rfl
@[simp] theorem Block.clearForAccept_phase (b : Block) : (b.clearForAccept).phase = b.phase := rfl
@[simp] theorem Block.clearForAccept_curOp (b : Block) : (b.clearForAccept).curOp = b.curOp := rfl
@[simp] theorem Block.clearForAccept_curLen (b : Block) : (b.clearForAccept).curLen = b.curLen := rfl
@[simp] theorem Block.clearForAccept_idx (b : Block) : (b.clearForAccept).idx = 0 := rfl
@[simp] theorem Block.clearForAccept_stage (b : Block) : (b.clearForAccept).stage = [] := rfl
@[simp] theorem Block.clearForAccept_tailDone (b : Block) : (b.clearForAccept).tailDone = false := rfl
@[simp] theorem Block.clearForAccept_uState (b : Block) : (b.clearForAccept).uState = .normal := rfl
@[simp] theorem Block.clearForAccept_escErr (b : Block) : (b.clearForAccept).escErr = false := rfl
@[simp] theorem Block.clearForAccept_dl (b : Block) : (b.clearForAccept).dl = [] := rfl
@[simp] theorem Block.clearForAccept_sofBad (b : Block) : (b.clearForAccept).sofBad = false := rfl
@[simp] theorem Block.clearForAccept_eofBad (b : Block) : (b.clearForAccept).eofBad = false := rfl

/-! ### ACCEPT of an illegal word -/

@[simp] theorem Block.acceptIllegal_code (b : Block) : (b.acceptIllegal).code = 4 := rfl
@[simp] theorem Block.acceptIllegal_cmpl (b : Block) : (b.acceptIllegal).cmpl = true := rfl
@[simp] theorem Block.acceptIllegal_outcnt (b : Block) : (b.acceptIllegal).outcnt = 0 := rfl
@[simp] theorem Block.acceptIllegal_acc (b : Block) : (b.acceptIllegal).acc = 0 := rfl
@[simp] theorem Block.acceptIllegal_phase (b : Block) : (b.acceptIllegal).phase = b.phase := rfl
@[simp] theorem Block.acceptIllegal_curOp (b : Block) : (b.acceptIllegal).curOp = b.curOp := rfl
@[simp] theorem Block.acceptIllegal_curLen (b : Block) : (b.acceptIllegal).curLen = b.curLen := rfl
@[simp] theorem Block.acceptIllegal_idx (b : Block) : (b.acceptIllegal).idx = 0 := rfl
@[simp] theorem Block.acceptIllegal_stage (b : Block) : (b.acceptIllegal).stage = [] := rfl
@[simp] theorem Block.acceptIllegal_tailDone (b : Block) : (b.acceptIllegal).tailDone = false := rfl
@[simp] theorem Block.acceptIllegal_uState (b : Block) : (b.acceptIllegal).uState = .normal := rfl
@[simp] theorem Block.acceptIllegal_escErr (b : Block) : (b.acceptIllegal).escErr = false := rfl
@[simp] theorem Block.acceptIllegal_dl (b : Block) : (b.acceptIllegal).dl = [] := rfl
@[simp] theorem Block.acceptIllegal_sofBad (b : Block) : (b.acceptIllegal).sofBad = false := rfl
@[simp] theorem Block.acceptIllegal_eofBad (b : Block) : (b.acceptIllegal).eofBad = false := rfl

/-! ### Reset -/

@[simp] theorem Block.reset_code : (Block.reset).code = 0 := rfl
@[simp] theorem Block.reset_cmpl : (Block.reset).cmpl = false := rfl
@[simp] theorem Block.reset_outcnt : (Block.reset).outcnt = 0 := rfl
@[simp] theorem Block.reset_acc : (Block.reset).acc = 0 := rfl
@[simp] theorem Block.reset_phase : (Block.reset).phase = .idle := rfl
@[simp] theorem Block.reset_curOp : (Block.reset).curOp = 0 := rfl
@[simp] theorem Block.reset_curLen : (Block.reset).curLen = 0 := rfl
@[simp] theorem Block.reset_idx : (Block.reset).idx = 0 := rfl
@[simp] theorem Block.reset_stage : (Block.reset).stage = [] := rfl
@[simp] theorem Block.reset_tailDone : (Block.reset).tailDone = false := rfl
@[simp] theorem Block.reset_uState : (Block.reset).uState = .normal := rfl
@[simp] theorem Block.reset_escErr : (Block.reset).escErr = false := rfl
@[simp] theorem Block.reset_dl : (Block.reset).dl = [] := rfl
@[simp] theorem Block.reset_sofBad : (Block.reset).sofBad = false := rfl
@[simp] theorem Block.reset_eofBad : (Block.reset).eofBad = false := rfl

/-! ### OutWrite(b) -/

@[simp] theorem HostSide.outWrite_cmdQ (h : HostSide) (x : Byte) : (h.outWrite x).cmdQ = h.cmdQ := rfl
@[simp] theorem HostSide.outWrite_inQ (h : HostSide) (x : Byte) : (h.outWrite x).inQ = h.inQ := rfl
@[simp] theorem HostSide.outWrite_outStream (h : HostSide) (x : Byte) : (h.outWrite x).outStream = h.outStream ++ [x] := rfl
@[simp] theorem HostSide.outWrite_outAccepts (h : HostSide) (x : Byte) : (h.outWrite x).outAccepts = h.outAccepts := rfl
@[simp] theorem HostSide.outWrite_log (h : HostSide) (x : Byte) : (h.outWrite x).log = h.log := rfl
@[simp] theorem HostSide.outWrite_script (h : HostSide) (x : Byte) : (h.outWrite x).script = h.script := rfl

/-! ### An observation noted -/

@[simp] theorem HostSide.note_cmdQ (h : HostSide) (n : HostNote) : (h.note n).cmdQ = h.cmdQ := rfl
@[simp] theorem HostSide.note_inQ (h : HostSide) (n : HostNote) : (h.note n).inQ = h.inQ := rfl
@[simp] theorem HostSide.note_outStream (h : HostSide) (n : HostNote) : (h.note n).outStream = h.outStream := rfl
@[simp] theorem HostSide.note_outAccepts (h : HostSide) (n : HostNote) : (h.note n).outAccepts = h.outAccepts := rfl
@[simp] theorem HostSide.note_log (h : HostSide) (n : HostNote) : (h.note n).log = h.log ++ [n] := rfl
@[simp] theorem HostSide.note_script (h : HostSide) (n : HostNote) : (h.note n).script = h.script := rfl

/-! ### Updates of the whole state -/

@[simp] theorem State.withScript_block (s : State) (l : List HostAction) : (s.withScript l).block = s.block := rfl
@[simp] theorem State.withScript_host_cmdQ (s : State) (l : List HostAction) : (s.withScript l).host.cmdQ = s.host.cmdQ := rfl
@[simp] theorem State.withScript_host_inQ (s : State) (l : List HostAction) : (s.withScript l).host.inQ = s.host.inQ := rfl
@[simp] theorem State.withScript_host_outStream (s : State) (l : List HostAction) : (s.withScript l).host.outStream = s.host.outStream := rfl
@[simp] theorem State.withScript_host_outAccepts (s : State) (l : List HostAction) : (s.withScript l).host.outAccepts = s.host.outAccepts := rfl
@[simp] theorem State.withScript_host_log (s : State) (l : List HostAction) : (s.withScript l).host.log = s.host.log := rfl
@[simp] theorem State.withScript_host_script (s : State) (l : List HostAction) : (s.withScript l).host.script = l := rfl
@[simp] theorem State.assertReset_block (s : State) : s.assertReset.block = Block.reset := rfl
@[simp] theorem State.assertReset_host (s : State) : s.assertReset.host = s.host := rfl
@[simp] theorem State.tail_host (s : State) (h : Handlers) : (s.tail h).host = s.host := rfl
@[simp] theorem State.complete_host (s : State) (h : Handlers) : (s.complete h).host = s.host := rfl

/-- A poll is done exactly when CMPL = 1 (R66). -/
@[simp] theorem State.pollDone_eq (s : State) : s.pollDone = s.block.cmpl := rfl

theorem State.withScript_self (s : State) (l : List HostAction) (hs : s.host.script = l) : s.withScript l = s := by
  subst hs
  rfl

@[simp] theorem State.withScript_withScript (s : State) (l m : List HostAction) :
    (s.withScript l).withScript m = s.withScript m := rfl

end Sys2Proof.Machine
end

