-- ==== Sys2Proof/Laws/Codec.lean ====
section
/-! SUPPORT. Small lemmas of the transaction functions: slices, byte order, and the two folds (R9, R44, R82, R84, R92). -/

namespace Sys2Proof.Machine

/-! ## Slices -/

theorem dropLast2_append_pair (p : List Byte) (a b : Byte) : dropLast2 (p ++ [a, b]) = p := by
  simp [dropLast2]

theorem last2_append_pair (p : List Byte) (a b : Byte) : last2 (p ++ [a, b]) = [a, b] := by
  simp [last2]

/-- A sequence of two bytes or more is its two slices (R9). -/
theorem dropLast2_append_last2 {s : List Byte} (h : 2 ≤ s.length) : dropLast2 s ++ last2 s = s := by
  simp [dropLast2, last2, h]

/-- The interior of a delimited sequence is what is delimited (R100). -/
theorem frameInterior_delimited (t : List Byte) (a b : Byte) : frameInterior (a :: (t ++ [b])) = t := by
  simp [frameInterior]

/-! ## Byte order -/

theorem lowByte_eq (v : Word16) : lowByte v = BitVec.ofNat 8 v.toNat := by
  apply BitVec.eq_of_toNat_eq
  simp [lowByte]

theorem highByte_eq (v : Word16) : highByte v = BitVec.ofNat 8 (v.toNat / 256) := by
  apply BitVec.eq_of_toNat_eq
  simp [highByte, Nat.shiftRight_eq_div_pow]

/-- The byte form of a 16-bit value determines it (R44). -/
theorem byteForm_injective {v w : Word16} (h : byteForm v = byteForm w) : v = w := by
  simp only [byteForm, lowByte_eq, highByte_eq, List.cons.injEq, and_true] at h
  have h1 := congrArg BitVec.toNat h.1
  have h2 := congrArg BitVec.toNat h.2
  have hv := v.isLt
  have hw := w.isLt
  simp only [BitVec.toNat_ofNat] at h1 h2
  apply BitVec.eq_of_toNat_eq
  omega

/-! ## The checksum -/

theorem csumValue_nil : csumValue [] = 0 := rfl

theorem csumValue_append (s t : List Byte) : csumValue (s ++ t) = csumValue s + csumValue t := by
  apply BitVec.eq_of_toNat_eq
  simp [csumValue]

theorem csumValue_toNat (s : List Byte) : (csumValue s).toNat = (s.map BitVec.toNat).sum % 65536 := by
  simp [csumValue]

/-! ## The unescape machine -/

theorem unescFold_append (st : UState) (err : Bool) (s t : List Byte) :
    unescFold st err (s ++ t) =
      ((unescFold (unescFold st err s).1 (unescFold st err s).2.1 t).1,
        (unescFold (unescFold st err s).1 (unescFold st err s).2.1 t).2.1,
        (unescFold st err s).2.2 ++ (unescFold (unescFold st err s).1 (unescFold st err s).2.1 t).2.2) := by
  induction s generalizing st err with
  | nil => simp [unescFold]
  | cons x s ih => simp [unescFold, ih]

/-- Unescaping the escape of one byte gives the byte and returns to NORMAL (R81, R84). -/
theorem unescFold_escByte (x : Byte) : unescFold .normal false (escByte x) = (.normal, false, [x]) := by
  revert x
  decide

/-- `unescape` answers a sequence exactly when the run ends well with it (R86). -/
theorem unescape_eq_ok {s u : List Byte} : unescape s = .ok u ↔ unescapeRun s = (u, true) := by
  cases h : unescapeRun s with
  | mk v ok => cases ok <;> simp [unescape, h]

/-- `unescape` has one error kind, for a run that ends badly (R86). -/
theorem unescape_eq_error {s : List Byte} {e : CodecError} :
    unescape s = .error e ↔ (unescapeRun s).2 = false ∧ e = .malformedPayload := by
  cases h : unescapeRun s with
  | mk v ok => cases ok <;> simp [unescape, h, eq_comm]

/-- The unescape machine outputs at most one byte for each it reads (R84). -/
theorem unescFold_length (st : UState) (err : Bool) (s : List Byte) :
    (unescFold st err s).2.2.length ≤ s.length := by
  induction s generalizing st err with
  | nil => simp [unescFold]
  | cons x s ih =>
    have := ih (unescStep st err x).uState (unescStep st err x).escErr
    simp only [unescFold, List.length_append, List.length_cons]
    cases (unescStep st err x).out <;> simp <;> omega

end Sys2Proof.Machine
end

