-- ==== Sys2Proof/Laws/Encoding.lean ====
section
/-! SUPPORT. The command word as a number: `(LEN << 32) | OP` is `LEN * 2^32 + OP`, and its three slices (R56). -/

namespace Sys2Proof

/-- A word with RSVD = 0 as a number (R56). -/
theorem wordOf_toNat (l : Word32) (o : BitVec 3) :
    ((l.setWidth 64 <<< 32) ||| o.setWidth 64 : Word64).toNat = l.toNat * 2 ^ 32 + o.toNat := by
  have hl := l.isLt
  have ho := o.isLt
  have e : (l.setWidth 64 <<< 32 : Word64).toNat = l.toNat <<< 32 := by
    simp [BitVec.toNat_shiftLeft, Nat.shiftLeft_eq]
    omega
  rw [BitVec.toNat_or, e, BitVec.toNat_setWidth, Nat.mod_eq_of_lt (by omega),
    ← Nat.shiftLeft_add_eq_or_of_lt (by omega), Nat.shiftLeft_eq]

theorem wordOp_toNat (w : Word64) : (wordOp w).toNat = w.toNat % 8 := by
  simp [wordOp]

theorem wordRsvd_toNat (w : Word64) : (wordRsvd w).toNat = w.toNat / 8 % 2 ^ 29 := by
  simp [wordRsvd, Nat.shiftRight_eq_div_pow]

theorem wordLen_toNat (w : Word64) : (wordLen w).toNat = w.toNat / 2 ^ 32 := by
  have := w.isLt
  simp only [wordLen, BitVec.extractLsb'_toNat, Nat.shiftRight_eq_div_pow]
  omega

/-- A command whose LEN fits keeps it in its field (R58). -/
theorem lenField_toNat {i : Instr} (h : i.wellFormed = true) : i.lenField.toNat = i.len := by
  have hl : i.len < Config.lenBound := by simpa [Instr.wellFormed] using h
  simp only [Config.lenBound_eq] at hl
  simp only [Instr.lenField, BitVec.toNat_ofNat]
  omega

/-- OP selects a command exactly when it is below 5 (R57). -/
theorem ofOp_eq_none (op : BitVec 3) (n : Nat) : Instr.ofOp op n = none ↔ 5 ≤ op.toNat := by
  have := op.isLt
  unfold Instr.ofOp
  split <;> simp_all
  omega

end Sys2Proof
end

