-- ==== Sys2Proof/Laws/Ops.lean ====
section
/-! SUPPORT. What each shared operation can do, said once: the events of 40_command_lifecycle.md under the premises of
Safety, `exec` as one shared event, and the turns of the scheduler. -/

namespace Sys2Proof.Machine

/-! ## Every command is one shared event over its row of R74 -/

/-- The meaning of every command is `commandEvent` on its handlers, and a next state. -/
theorem exec_eq (i : Instr) (s : State) : exec i s = .next (s.commandEvent (handlersOf i) i) := by
  cases i <;> rfl

/-- In IDLE a command's event is its ACCEPT. -/
theorem commandEvent_idle {s : State} (h : Handlers) (i : Instr) (hp : s.block.phase = .idle) :
    s.commandEvent h i = { s with block := s.block.acceptLegal h i } := by
  simp [State.commandEvent, hp]

theorem State.Running.holds {s : State} {i : Instr} (r : s.Running i) : s.block.holds i = true := by
  simp [Block.holds, r.op, r.len]

/-- While a command is in progress its event is `advance`. -/
theorem commandEvent_running {s : State} {i : Instr} (h : Handlers) (r : s.Running i) :
    s.commandEvent h i = s.advance h := by
  simp [State.commandEvent, r.run, r.holds]

/-- While another command is in progress the offered one waits. -/
theorem commandEvent_waits {s : State} (h : Handlers) (i : Instr) (hp : s.block.phase = .run)
    (ho : s.block.holds i = false) : s.commandEvent h i = s := by
  simp [State.commandEvent, hp, ho]

theorem exec_running {s : State} {i : Instr} (r : s.Running i) :
    exec i s = .next (s.advance (handlersOf i)) := by
  rw [exec_eq, commandEvent_running _ r]

/-! ## `advance` under the premise of each event -/

theorem advance_emit {s : State} {i : Instr} {x : Byte} {xs : List Byte} (h : Handlers) (r : s.EmitReady i x xs) :
    s.advance h =
      { block := { s.block with stage := xs, outcnt := s.block.outcnt + 1 }, host := s.host.outWrite x } := by
  simp [State.advance, State.emitEnabled, State.emit, r.stage, r.accepts]

theorem advance_consume {s : State} {i : Instr} {x : Byte} {xs : List Byte} (h : Handlers)
    (r : s.ConsumeReady i x xs) :
    s.advance h =
      { block := { h.onByte x s.block with idx := (h.onByte x s.block).idx + 1 }
        host := { s.host with inQ := xs } } := by
  simp [State.advance, State.emitEnabled, State.consumeEnabled, State.consume, HostSide.inRead, r.stage, r.run,
    r.idx, r.input]

theorem advance_tail {s : State} {i : Instr} (h : Handlers) (r : s.TailReady i) :
    s.advance h = { s with block := { h.onTail s.block with tailDone := true } } := by
  simp [State.advance, State.emitEnabled, State.consumeEnabled, State.tailEnabled, State.tail, r.stage, r.run,
    r.idx, r.tailDone]

theorem advance_complete {s : State} {i : Instr} (h : Handlers) (r : s.CompleteReady i) :
    s.advance h =
      { s with block := { s.block.report (h.verdict s.block) with phase := .idle } } := by
  simp [State.advance, State.emitEnabled, State.consumeEnabled, State.tailEnabled, State.completeEnabled,
    State.complete, r.stage, r.run, r.idx, r.tailDone]

/-- Everything `advance` can do: one of the four events, under its enabling condition, or a hold. -/
theorem advance_cases (s : State) (h : Handlers) :
    (s.emitEnabled = true ∧ s.advance h = s.emit)
    ∨ (s.emitEnabled = false ∧ s.consumeEnabled = true ∧ s.advance h = s.consume h)
    ∨ (s.emitEnabled = false ∧ s.consumeEnabled = false ∧ s.tailEnabled = true ∧ s.advance h = s.tail h)
    ∨ (s.emitEnabled = false ∧ s.consumeEnabled = false ∧ s.tailEnabled = false ∧ s.completeEnabled = true
        ∧ s.advance h = s.complete h)
    ∨ (s.emitEnabled = false ∧ s.consumeEnabled = false ∧ s.tailEnabled = false ∧ s.completeEnabled = false
        ∧ s.advance h = s) := by
  unfold State.advance
  cases s.emitEnabled with
  | true => exact .inl ⟨rfl, rfl⟩
  | false =>
    cases s.consumeEnabled with
    | true => exact .inr (.inl ⟨rfl, rfl, rfl⟩)
    | false =>
      cases s.tailEnabled with
      | true => exact .inr (.inr (.inl ⟨rfl, rfl, rfl, rfl⟩))
      | false =>
        cases s.completeEnabled with
        | true => exact .inr (.inr (.inr (.inl ⟨rfl, rfl, rfl, rfl, rfl⟩)))
        | false => exact .inr (.inr (.inr (.inr ⟨rfl, rfl, rfl, rfl, rfl⟩)))

/-! ## Each event by what it finds -/

theorem emitEnabled_iff (s : State) :
    s.emitEnabled = true ↔ s.block.stage ≠ [] ∧ s.host.outAccepts = true := by
  simp [State.emitEnabled]

theorem consumeEnabled_iff (s : State) :
    s.consumeEnabled = true ↔ s.block.phase = .run ∧ s.block.stage = [] ∧ s.block.idx < s.block.curLen
      ∧ s.host.inQ ≠ [] := by
  simp [State.consumeEnabled, List.isEmpty_iff, and_assoc]

theorem tailEnabled_iff (s : State) :
    s.tailEnabled = true ↔ s.block.phase = .run ∧ s.block.idx = s.block.curLen ∧ s.block.stage = []
      ∧ s.block.tailDone = false := by
  simp [State.tailEnabled, List.isEmpty_iff, and_assoc]

theorem completeEnabled_iff (s : State) :
    s.completeEnabled = true ↔ s.block.phase = .run ∧ s.block.idx = s.block.curLen ∧ s.block.tailDone = true
      ∧ s.block.stage = [] := by
  simp [State.completeEnabled, List.isEmpty_iff, and_assoc]

theorem acceptEnabled_iff (s : State) :
    s.acceptEnabled = true ↔ s.block.phase = .idle ∧ s.host.cmdQ ≠ [] := by
  simp [State.acceptEnabled]

theorem emit_eq {s : State} {x : Byte} {xs : List Byte} (hs : s.block.stage = x :: xs) :
    s.emit =
      { block := { s.block with stage := xs, outcnt := s.block.outcnt + 1 }, host := s.host.outWrite x } := by
  simp [State.emit, hs]

theorem consume_eq {s : State} {x : Byte} {xs : List Byte} (h : Handlers) (hs : s.host.inQ = x :: xs) :
    s.consume h =
      { block := { h.onByte x s.block with idx := (h.onByte x s.block).idx + 1 }
        host := { s.host with inQ := xs } } := by
  simp [State.consume, HostSide.inRead, hs]

/-! ## The scheduler -/

/-- The block's turn in IDLE: ACCEPT of the head word, or a hold. -/
theorem blockTurn_idle_word {s : State} {w : Word64} {ws : List Word64} (hp : s.block.phase = .idle)
    (hq : s.host.cmdQ = w :: ws) :
    blockTurn s = { s with host := { s.host with cmdQ := ws } }.acceptWord w := by
  simp [blockTurn, hp, hq]

theorem blockTurn_idle_none {s : State} (hp : s.block.phase = .idle) (hq : s.host.cmdQ = []) :
    blockTurn s = .next (if s.emitEnabled then s.emit else s) := by
  simp [blockTurn, hp, hq]

theorem blockTurn_run {s : State} {i : Instr} (hp : s.block.phase = .run) (hc : s.block.current = some i) :
    blockTurn s = exec i s := by
  simp [blockTurn, hp, hc]

/-- With the script used up, the step is the block's turn. -/
theorem step_quiet {s : State} (hs : s.host.script = []) : step s = blockTurn s := by
  simp [step, turn, hs]

theorem ofOp_some {op : BitVec 3} {n : Nat} {i : Instr} (h : Instr.ofOp op n = some i) :
    i.op = op ∧ i.len = n := by
  unfold Instr.ofOp at h
  split at h <;> simp at h <;> subst h <;> refine ⟨?_, rfl⟩ <;>
    (apply BitVec.eq_of_toNat_eq; simp [Instr.op, *])

theorem ofOp_op (i : Instr) : Instr.ofOp i.op i.len = some i := by
  cases i <;> rfl

/-- The command CUR_OP and CUR_LEN name is the one they hold. -/
theorem Block.current_holds {b : Block} {i : Instr} (h : b.current = some i) : b.holds i = true := by
  obtain ⟨h1, h2⟩ := ofOp_some h
  simp [Block.holds, h1, Instr.lenField, h2]

/-- Everything a step can do that answers a next state: a turn of the block on the script that is left, the end of a poll, or
an action of the host. -/
theorem step_cases {s t : State} (h : step s = .next t) :
    (∃ rest, (s.host.script = rest ∨ s.host.script = .blockTurn :: rest) ∧ blockTurn (s.withScript rest) = .next t)
    ∨ (∃ rest, s.host.script = .poll :: rest ∧ t = s.withScript rest)
    ∨ (∃ a rest, s.host.script = a :: rest ∧ t = (s.withScript rest).hostAct a) := by
  unfold step turn at h
  split at h
  · next hs =>
    refine .inl ⟨[], .inl hs, ?_⟩
    rwa [State.withScript_self s [] hs]
  · next rest hs => exact .inl ⟨rest, .inr hs, h⟩
  · next rest hs =>
    split at h
    · exact .inr (.inl ⟨rest, hs, by simpa using h.symm⟩)
    · refine .inl ⟨.poll :: rest, .inl hs, ?_⟩
      rwa [State.withScript_self s _ hs]
  all_goals
    next hs => exact .inr (.inr ⟨_, _, hs, by simpa using h.symm⟩)

end Sys2Proof.Machine
end

