-- ==== Sys2Proof/Laws/Handlers.lean ====
section
/-! SUPPORT. What the handlers of R74 leave alone, and how much they stage (R77): said once for all five commands. -/

namespace Sys2Proof.Machine

/-- `dlPush` changes DL, ACC and STAGE alone (R102). -/
theorem dlPush_frame (b : Block) (u : Byte) :
    b.dlPush u =
      { b with dl := (b.dlPush u).dl, acc := (b.dlPush u).acc, stage := (b.dlPush u).stage } := by
  unfold Block.dlPush
  split <;> rfl

/-- A delay line that holds fewer than two bytes takes one more (R102). -/
theorem dlPush_short {b : Block} (u : Byte) (h : b.dl.length < 2) :
    b.dlPush u = { b with dl := b.dl ++ [u] } := by
  match hd : b.dl, h with
  | [], _ => simp [Block.dlPush, hd]
  | [_], _ => simp [Block.dlPush, hd]

/-- A delay line of two bytes lets the older one go (R102). -/
theorem dlPush_full {b : Block} {old young : Byte} (u : Byte) (h : b.dl = [old, young]) :
    b.dlPush u =
      { b with dl := [young, u], acc := addByte b.acc old, stage := b.stage ++ [old] } := by
  simp [Block.dlPush, h, Block.accAdd, Block.stageBytes]

/-- onByte leaves CUR_OP, CUR_LEN, IDX, PHASE, CODE, CMPL, TAIL_DONE and OUTCNT alone. -/
theorem onByte_frame (i : Instr) (x : Byte) (b : Block) :
    let c := (handlersOf i).onByte x b
    c.curOp = b.curOp ∧ c.curLen = b.curLen ∧ c.idx = b.idx ∧ c.phase = b.phase ∧ c.code = b.code
      ∧ c.cmpl = b.cmpl ∧ c.tailDone = b.tailDone ∧ c.outcnt = b.outcnt := by
  cases i with
  | decodeFrame n =>
    simp only [handlersOf, decodeFrameHandlers, decodeOnByte]
    split
    · simp
    · simp
    · split
      · simp
      · rw [dlPush_frame]
        simp
  | _ =>
    simp [handlersOf, escapeHandlers, unescapeHandlers, checksumHandlers, encodeFrameHandlers, unescapeOnByte]

/-- onTail changes STAGE alone. -/
theorem onTail_frame (i : Instr) (b : Block) :
    (handlersOf i).onTail b = { b with stage := ((handlersOf i).onTail b).stage } := by
  cases i <;> rfl

/-- The escape of a byte is one or two bytes (R81). -/
theorem escByte_length (x : Byte) : 1 ≤ (escByte x).length ∧ (escByte x).length ≤ 2 := by
  unfold escByte
  split <;> simp

theorem option_toList_length {α : Type} (o : Option α) : o.toList.length ≤ 1 := by
  cases o <;> simp

/-- onByte stages at most two bytes into an empty STAGE (R77). -/
theorem onByte_stage_length (i : Instr) (x : Byte) {b : Block} (hs : b.stage = []) (hd : b.dl.length ≤ 2) :
    ((handlersOf i).onByte x b).stage.length ≤ 2 := by
  cases i with
  | escape n => simpa [handlersOf, escapeHandlers, hs] using (escByte_length x).2
  | unescape n =>
    have := option_toList_length (unescStep b.uState b.escErr x).out
    simp only [handlersOf, unescapeHandlers, unescapeOnByte, Block.stageBytes_stage, hs, List.nil_append]
    omega
  | checksum n => simp [handlersOf, checksumHandlers, hs]
  | encodeFrame n => simpa [handlersOf, encodeFrameHandlers, hs] using (escByte_length x).2
  | decodeFrame n =>
    simp only [handlersOf, decodeFrameHandlers, decodeOnByte]
    split
    · simp [hs]
    · simp [hs]
    · split
      · simp [hs]
      · next u _ =>
        rcases Nat.lt_or_ge b.dl.length 2 with h | h
        · rw [dlPush_short u (by exact h)]
          simp [hs]
        · obtain ⟨old, young, e⟩ := List.length_eq_two.1 (by omega : b.dl.length = 2)
          rw [dlPush_full u (old := old) (young := young) (by exact e)]
          simp [hs]

/-- onTail stages at most five bytes into an empty STAGE (R77). -/
theorem onTail_stage_length (i : Instr) {b : Block} (hs : b.stage = []) :
    ((handlersOf i).onTail b).stage.length ≤ 5 := by
  cases i with
  | encodeFrame n =>
    have h1 := (escByte_length (lowByte b.acc)).2
    have h2 := (escByte_length (highByte b.acc)).2
    simp only [handlersOf, encodeFrameHandlers, Block.stageBytes_stage, hs, List.nil_append, List.length_append,
      List.length_singleton]
    omega
  | _ => simp [handlersOf, escapeHandlers, unescapeHandlers, checksumHandlers, decodeFrameHandlers, byteForm, hs]

/-- The verdict of every command is a code STATUS can hold: at most 4 (R110). -/
theorem ResultCode.value_le (c : ResultCode) : c.value ≤ 4 := by
  cases c <;> decide

/-- What the block does for the command it holds, while it runs: nothing, for a command that is not the one held. -/
theorem exec_run_cases {i : Instr} {s t : State} (hp : s.block.phase = .run) (h : exec i s = .next t) :
    t = s ∨ (s.block.holds i = true ∧ t = s.advance (handlersOf i)) := by
  rw [exec_eq] at h
  simp only [Host.Outcome.next.injEq] at h
  cases hh : s.block.holds i with
  | true =>
    refine .inr ⟨rfl, ?_⟩
    simp only [State.commandEvent, hp, hh, if_true] at h
    exact h.symm
  | false =>
    rw [commandEvent_waits _ _ hp hh] at h
    exact .inl h.symm

/-- In the invariant's states CUR_OP names a command (R25, R60). -/
theorem Block.Inv.current {b : Block} (h : b.Inv) : ∃ i, b.current = some i := by
  have h4 : b.curOp.toNat ≤ 4 := h.op_le
  rcases hc : b.current with _ | i
  · have := (ofOp_eq_none _ _).1 hc
    omega
  · exact ⟨i, rfl⟩

end Sys2Proof.Machine
end

