-- ==== Sys2Proof/Laws/PerInstr.lean ====
section
/-! SUPPORT. Statements made for every command as syntax, one lemma per constructor. -/

namespace Sys2Proof.Laws.OpcodeRow

open Sys2Proof

/-- The `match` value of the command's row of spec/opcode_table.json, in the low 32 bits. -/
def rowMatch : Instr → BitVec 32
  | .escape _ => 0x00000000
  | .unescape _ => 0x00000001
  | .checksum _ => 0x00000002
  | .encodeFrame _ => 0x00000003
  | .decodeFrame _ => 0x00000004

/-- The command's word has its table row's match under the row's mask 0x00000000FFFFFFFF: OP in place and RSVD 0. -/
def Statement (i : Instr) : Prop := (encode i).setWidth 32 = rowMatch i

theorem low_half (l : BitVec 32) (o : BitVec 3) :
    ((l.setWidth 64 <<< 32) ||| o.setWidth 64).setWidth 32 = o.setWidth 32 := by
  ext k hk
  simp

theorem escape (len : Nat) : Statement (.escape len) := low_half _ _
theorem unescape (len : Nat) : Statement (.unescape len) := low_half _ _
theorem checksum (len : Nat) : Statement (.checksum len) := low_half _ _
theorem encodeFrame (len : Nat) : Statement (.encodeFrame len) := low_half _ _
theorem decodeFrame (len : Nat) : Statement (.decodeFrame len) := low_half _ _

end Sys2Proof.Laws.OpcodeRow
end

