-- ==== Sys2Proof/Laws/Run.lean ====
section
/-! SUPPORT. Runs of the machine, one step at a time. -/

namespace Sys2Proof.Machine

/-- A run of `n + 1` steps is a step and a run of `n`. -/
theorem core_run_succ {s t : State} (n : Nat) (h : step s = .next t) :
    Sys2Proof.core.run (n + 1) s = Sys2Proof.core.run n t := by
  have h' : Sys2Proof.core.step s = .next t := h
  simp only [Host.Core.run, h']

/-- The fetch word is the next command the machine accepts: the step is `exec` of what it decodes to. -/
theorem step_withFetchWord {s : State} {nbits w : Nat} {i : Instr} (h : decodeTableWord nbits w = some i) :
    ∃ r : State, r.block = { s.block with phase := .idle } ∧ r.host = { s.host with script := [] }
      ∧ step (s.withFetchWord nbits w) = exec i r := by
  refine ⟨{ block := { s.block with phase := .idle }, host := { s.host with script := [] } }, rfl, rfl, ?_⟩
  unfold decodeTableWord at h
  cases hd : decodeCmd (BitVec.ofNat 64 (w % 2 ^ nbits)) with
  | ok j =>
    simp only [hd, Option.some.injEq] at h
    subst h
    rw [step_quiet rfl, blockTurn_idle_word (w := BitVec.ofNat 64 (w % 2 ^ nbits)) (ws := s.host.cmdQ) rfl rfl]
    simp only [State.acceptWord, hd]
    rfl
  | error e => simp [hd] at h

end Sys2Proof.Machine
end

