-- ==== Sys2Proof/Tests/Slice0.lean ====
section
/-! SUPPORT. Tests on small states, with expected values from spec/95_test_vectors.md and the rules named, and for every
statement of Certificates/Slice0/Obligations.lean that has hypotheses a witness that meets them together. -/

namespace Sys2Proof.Machine.Tests

open Sys2Proof Sys2Proof.Machine

/-! ## Small states -/

/-- A block running the command with this OP and LEN, `idx` bytes consumed. -/
def running (op : BitVec 3) (len idx : Nat) : Block :=
  { Block.reset with phase := .run, curOp := op, curLen := BitVec.ofNat 32 len, idx := BitVec.ofNat 32 idx }

/-- A host that has pushed these input bytes and accepts output. -/
def pushed (input : List Byte) : HostSide := { HostSide.powerOn with inQ := input }

/-- A running command with input waiting. -/
def runningWith (op : BitVec 3) (len idx : Nat) (input : List Byte) : State := ⟨running op len idx, pushed input⟩

/-- A running command whose input is used up and whose TAIL has run. -/
def finished (op : BitVec 3) (len : Nat) : Block := { running op len len with tailDone := true }

/-- A running command with bytes to emit. -/
def emitting (op : BitVec 3) (bs : List Byte) : State := ⟨{ running op 3 1 with stage := bs }, pushed []⟩

/-- A block just reset, with a host that has offered a word and pushed bytes. -/
def offered (w : Word64) (input : List Byte) : State := ⟨Block.reset, { pushed input with cmdQ := [w] }⟩

/-- A block just reset, with a host about to do this. -/
def about (a : HostAction) : State := ⟨Block.reset, { HostSide.powerOn with script := [a] }⟩

/-- The next state, for looking at one field of it. -/
def after (o : Host.Outcome State Fault Refusal) : Option State :=
  match o with
  | .next t => some t
  | .fault _ => none
  | .refused _ => none

/-! ## Well-formedness: one ill-formed term for the one check -/

theorem test_len_fits : (Instr.escape 4294967295).wellFormed = true := by decide
theorem test_len_too_long : (Instr.escape 4294967296).wellFormed = false := by decide
theorem test_line_too_long : (Line.command .checksum 4294967296).wellFormed = false := by decide

/-! ## Decoding, by words written out bit by bit from R56 and R57 -/

/-- ESCAPE 3: OP = 000, RSVD = 0, LEN bits 32 and 33. -/
theorem test_decode_escape : decodeCmd (BitVec.ofNat 64 (0b000 + 2 ^ 32 + 2 ^ 33)) = .ok (.escape 3) := by decide
/-- UNESCAPE 2: OP = 001, LEN bit 33. -/
theorem test_decode_unescape : decodeCmd (BitVec.ofNat 64 (0b001 + 2 ^ 33)) = .ok (.unescape 2) := by decide
/-- CHECKSUM 5: OP = 010, LEN bits 32 and 34. -/
theorem test_decode_checksum : decodeCmd (BitVec.ofNat 64 (0b010 + 2 ^ 32 + 2 ^ 34)) = .ok (.checksum 5) := by decide
/-- ENCODE_FRAME 2147483648: OP = 011, LEN bit 63. -/
theorem test_decode_encodeFrame : decodeCmd (BitVec.ofNat 64 (0b011 + 2 ^ 63)) = .ok (.encodeFrame 2147483648) := by
  decide
/-- DECODE_FRAME 10: OP = 100, LEN bits 33 and 35. -/
theorem test_decode_decodeFrame : decodeCmd (BitVec.ofNat 64 (0b100 + 2 ^ 33 + 2 ^ 35)) = .ok (.decodeFrame 10) := by
  decide
/-- V-I1, V-I2, V-I3 and the highest RSVD bit: illegal (R61). -/
theorem test_decode_illegal :
    decodeCmd 0x0000000000000005 = .error .reservedOp ∧ decodeCmd 0x0000000200000007 = .error .reservedOp
      ∧ decodeCmd 0x0000000300000008 = .error .reservedBits ∧ decodeCmd 0x0000000080000000 = .error .reservedBits := by
  decide
/-- The table's rows hold only the low 32 bits: LEN reads 0. -/
theorem test_decodeTableWord : decodeTableWord 32 4 = some (.decodeFrame 0) ∧ decodeTableWord 64 5 = none := by decide
/-- R64: the word of `ENCODE_FRAME 5` is 0x0000000500000003. -/
theorem test_encode : encode (.encodeFrame 5) = 0x0000000500000003 := by decide
/-- After reset the step runs the word placed for it. -/
theorem test_withFetchWord :
    (after (step (State.reset.withFetchWord 64 0x0000000200000003))).map
      (fun t => (t.block.curOp, t.block.curLen, t.block.stage)) = some (3, 2, [0x01]) := by decide

/-! ## At most two one-step tests for each command -/

/-- V-E3: consuming 01 stages 03 04. -/
theorem test_escape_reserved :
    (after (exec (.escape 1) (runningWith 0 1 0 [0x01]))).map (fun t => t.block.stage) = some [0x03, 0x04] := by decide
/-- V-E1: ESCAPE of nothing completes with STATUS = 0x10. -/
theorem test_escape_completes :
    (after (exec (.escape 0) ⟨finished 0 0, pushed []⟩)).map (fun t => t.block.readReg 0) = some 0x10 := by decide
/-- V-U13: after a lead, a second 03 is not a lead but an error. -/
theorem test_unescape_second_lead :
    (after (exec (.unescape 2) ⟨{ running 1 2 1 with uState := .escaped }, pushed [0x03]⟩)).map
      (fun t => (t.block.stage, t.block.escErr)) = some ([], true) := by decide
/-- V-U12: an unterminated escape completes with STATUS = 0x12. -/
theorem test_unescape_unterminated :
    (after (exec (.unescape 1) ⟨{ finished 1 1 with uState := .escaped }, pushed []⟩)).map (fun t => t.block.readReg 0)
      = some 0x12 := by decide
/-- V-C10: 0xFFFF and one more FF wrap to 0x00FE. -/
theorem test_checksum_wraps :
    (after (exec (.checksum 258) ⟨{ running 2 258 257 with acc := 0xFFFF }, pushed [0xFF]⟩)).map (fun t => t.block.acc)
      = some 0x00FE := by decide
/-- P4: the tail of the sum 0x0165 is 65 01. -/
theorem test_checksum_tail :
    (after (exec (.checksum 2) ⟨{ running 2 2 2 with acc := 0x0165 }, pushed []⟩)).map (fun t => t.block.stage)
      = some [0x65, 0x01] := by decide
/-- T1 event 7: the tail with both checksum bytes reserved. -/
theorem test_encodeFrame_tail :
    (after (exec (.encodeFrame 2) ⟨{ running 3 2 2 with acc := 0x0103 }, pushed []⟩)).map (fun t => t.block.stage)
      = some [0x03, 0x06, 0x03, 0x04, 0x02] := by decide
/-- T1 event 5: consuming 04 adds and stages it unescaped. -/
theorem test_encodeFrame_byte :
    (after (exec (.encodeFrame 2) ⟨{ running 3 2 1 with acc := 0x00FF }, pushed [0x04]⟩)).map
      (fun t => (t.block.acc, t.block.stage)) = some (0x0103, [0x04]) := by decide
/-- T2 event 7: the delay line overflows. -/
theorem test_decodeFrame_delay :
    (after (exec (.decodeFrame 7) ⟨{ running 4 7 5 with dl := [0x01, 0x01] }, pushed [0x00, 0x02]⟩)).map
      (fun t => (t.block.dl, t.block.acc, t.block.stage)) = some ([0x01, 0x00], 0x0001, [0x01]) := by decide
/-- V-D30: a short frame reports INVALID_LENGTH although its escape is bad too. -/
theorem test_decodeFrame_priority :
    (after (exec (.decodeFrame 3) ⟨{ finished 4 3 with escErr := true, eofBad := true }, pushed []⟩)).map
      (fun t => t.block.readReg 0) = some 0x11 := by decide

/-! ## The source's own vectors, and the assembler -/

/-- V-S3. -/
theorem test_escape_source : escape [0x01, 0x02, 0x03] = [0x03, 0x04, 0x03, 0x05, 0x03, 0x06] := by decide
/-- R86 on the corner cases of R89: an unterminated escape is MalformedPayload, and a raw 01 is data. -/
theorem test_unescape_result :
    unescape [0x00, 0x03] = .error .malformedPayload ∧ unescape [0x03, 0x04, 0x01] = .ok [0x01, 0x01] := by decide
/-- V-S2. -/
theorem test_encodeFrame_source :
    encodeFrame [0x05, 0x00, 0x45, 0x00, 0x01]
      = [0x01, 0x05, 0x00, 0x45, 0x00, 0x03, 0x04, 0x4B, 0x00, 0x02] := by decide
/-- V-D6: the interior is shorter than a checksum (D10). -/
theorem test_decodeFrame_short_interior : decodeFrame [0x01, 0x03, 0x04, 0x02] = .error .invalidLength := by decide
/-- R64, R65: a line of text with a comment. -/
theorem test_readLine :
    readLine ['E', 'S', 'C', 'A', 'P', 'E', ' ', openBrace, '0', '1', ' ', 'F', 'f', closeBrace, ' ', ';', 'x']
      = some (.commandWith .escape [0x01, 0xFF]) := by decide
/-- R66: a poll ends at CMPL = 1 although a second word is still queued. -/
theorem test_poll_ends_at_completion :
    (after (step ⟨{ finished 2 1 with phase := .idle, cmpl := true }, { (about .poll).host with cmdQ := [0x2] }⟩)).map
      (fun t => (t.host.script, t.host.cmdQ)) = some ([], [0x2]) := by decide
/-- R64: LEN in hexadecimal, and a LEN that does not fit. -/
theorem test_readLine_len :
    readLine "CHECKSUM 0x10".toList = some (.command .checksum 16)
      ∧ readLine "CHECKSUM 4294967296".toList = none := by decide

/-! ## Witnesses: the hypotheses of each statement can be met -/

theorem witness_DecodeOfEncodeIsIdentity : (Instr.decodeFrame 4294967295).wellFormed = true := by decide
theorem witness_EncodeOfDecodeIsIdentity : decodeCmd 0xFFFFFFFF00000000 = .ok (.escape 4294967295) := by decide
theorem witness_DecoderIsTotalByFields :
    (0x8 : Word64).extractLsb' 3 29 ≠ 0
      ∧ ((0x5 : Word64).extractLsb' 3 29 = 0 ∧ 5 ≤ ((0x5 : Word64).extractLsb' 0 3).toNat)
      ∧ ((0x4 : Word64).extractLsb' 3 29 = 0 ∧ ((0x4 : Word64).extractLsb' 0 3).toNat < 5) := by decide
theorem witness_StepAcceptsOfferedCommand :
    (offered 0x3 []).block.phase = .idle ∧ (offered 0x3 []).host.script = [] ∧ (offered 0x3 []).host.cmdQ = [0x3]
      ∧ decodeCmd 0x3 = .ok (.encodeFrame 0) := by decide
theorem witness_StepRunsCommandInProgress :
    (runningWith 4 10 3 []).Running (.decodeFrame 10) ∧ (Instr.decodeFrame 10).wellFormed = true
      ∧ (runningWith 4 10 3 []).host.script = [] := ⟨⟨rfl, rfl, rfl⟩, rfl, rfl⟩
theorem witness_ScriptedTurnIsStepOfBlock_blockTurn :
    (∃ t, step ((about .blockTurn).withScript []) = .next t) ∧ (about .blockTurn).host.script = .blockTurn :: [] :=
  ⟨⟨_, rfl⟩, rfl⟩
theorem witness_ScriptedTurnIsStepOfBlock_polls :
    (∃ t, step ((about .poll).withScript []) = .next t) ∧ (about .poll).host.script = .poll :: []
      ∧ (about .poll).block.cmpl = false := ⟨⟨_, rfl⟩, rfl, rfl⟩
theorem witness_ScriptedTurnIsStepOfBlock_done :
    let s : State := ⟨{ Block.reset with cmpl := true }, (about .poll).host⟩
    (∃ t, step (s.withScript []) = .next t) ∧ s.host.script = .poll :: [] ∧ s.block.cmpl = true := ⟨⟨_, rfl⟩, rfl, rfl⟩
theorem witness_IllegalWordCompletesAtAccept :
    (offered 0x7 []).block.phase = .idle ∧ (offered 0x7 []).host.script = [] ∧ (offered 0x7 []).host.cmdQ = [0x7]
      ∧ decodeCmd 0x7 = .error .reservedOp := by decide
theorem witness_ResetEventAbandonsCommand : (about .assertReset).host.script = .assertReset :: [] := rfl
theorem witness_RegisterReadPort : (3 : Nat) ≠ 0 ∧ (3 : Nat) ≠ 1 ∧ (3 : Nat) ≠ 2 := by decide
theorem witness_HostActionEffects :
    (about (.offer 0)).host.script = .offer 0 :: [] ∧ (about (.push 1)).host.script = .push 1 :: []
      ∧ (about (.accepting false)).host.script = .accepting false :: []
      ∧ (about (.discardInput 1)).host.script = .discardInput 1 :: []
      ∧ (about (.readReg 2)).host.script = .readReg 2 :: []
      ∧ (about (.expectOut [0x05])).host.script = .expectOut [0x05] :: [] ∧ HostAction.poll ≠ .assertReset := by decide
theorem witness_CodeReadsZeroWhileBusy :
    let b := { running 4 6 2 with sofBad := true, escErr := true }
    b.Inv ∧ b.phase = .run := ⟨by constructor <;> decide, rfl⟩
theorem witness_AcceptLatchesCommand : (offered 0x3 []).block.phase = .idle := rfl
theorem witness_AcceptForgetsEarlierCommands :
    (offered 0x0 []).block.phase = .idle
      ∧ ({ finished 4 7 with phase := .idle, cmpl := true, dl := [0x4B, 0x00], acc := 0x4B } : Block).phase = .idle :=
  ⟨rfl, rfl⟩
theorem witness_UnescapeStepTable :
    (0x01 : Byte) ≠ 0x03 ∧ (4 ≤ (0x04 : Byte).toNat ∧ (0x04 : Byte).toNat ≤ 6)
      ∧ (4 ≤ (0x06 : Byte).toNat ∧ (0x06 : Byte).toNat ≤ 6)
      ∧ ¬(4 ≤ (0x03 : Byte).toNat ∧ (0x03 : Byte).toNat ≤ 6) ∧ ¬(4 ≤ (0x07 : Byte).toNat ∧ (0x07 : Byte).toNat ≤ 6) := by
  decide
theorem witness_EscapeConsumesByte : (runningWith 0 2 1 [0x01, 0x05]).ConsumeReady (.escape 2) 0x01 [0x05] :=
  ⟨⟨rfl, rfl, rfl⟩, rfl, by decide, rfl⟩
theorem witness_UnescapeConsumesByte : (runningWith 1 2 0 [0x03, 0x04]).ConsumeReady (.unescape 2) 0x03 [0x04] :=
  ⟨⟨rfl, rfl, rfl⟩, rfl, by decide, rfl⟩
theorem witness_UnescapeCompletesWithVerdict :
    State.CompleteReady ⟨{ finished 1 1 with uState := .escaped }, pushed []⟩ (.unescape 1) :=
  ⟨⟨rfl, rfl, rfl⟩, rfl, rfl, rfl⟩
theorem witness_ChecksumConsumesByte : (runningWith 2 1 0 [0xFF]).ConsumeReady (.checksum 1) 0xFF [] :=
  ⟨⟨rfl, rfl, rfl⟩, rfl, by decide, rfl⟩
theorem witness_ChecksumTailStagesLittleEndian : (runningWith 2 0 0 []).TailReady (.checksum 0) :=
  ⟨⟨rfl, rfl, rfl⟩, rfl, rfl, rfl⟩
theorem witness_EncodeFrameConsumesByte : (runningWith 3 1 0 [0x02]).ConsumeReady (.encodeFrame 1) 0x02 [] :=
  ⟨⟨rfl, rfl, rfl⟩, rfl, by decide, rfl⟩
theorem witness_EncodeFrameTailStagesChecksum : (runningWith 3 1 1 []).TailReady (.encodeFrame 1) :=
  ⟨⟨rfl, rfl, rfl⟩, rfl, rfl, rfl⟩
/-- The single byte of a frame of LEN = 1 falls under the first clause alone. -/
theorem witness_DecodeFrameChecksDelimiters_first :
    (runningWith 4 1 0 [0x02]).ConsumeReady (.decodeFrame 1) 0x02 [] ∧ (runningWith 4 1 0 [0x02]).block.idx = 0 :=
  ⟨⟨⟨rfl, rfl, rfl⟩, rfl, by decide, rfl⟩, rfl⟩
theorem witness_DecodeFrameChecksDelimiters_last :
    (runningWith 4 2 1 [0x02]).ConsumeReady (.decodeFrame 2) 0x02 [] ∧ (runningWith 4 2 1 [0x02]).block.idx ≠ 0
      ∧ (runningWith 4 2 1 [0x02]).block.idx.toNat + 1 = (runningWith 4 2 1 [0x02]).block.curLen.toNat :=
  ⟨⟨⟨rfl, rfl, rfl⟩, rfl, by decide, rfl⟩, by decide, by decide⟩
theorem witness_DecodeFrameConsumesSilentByte :
    let s := runningWith 4 3 1 [0x03, 0x02]
    s.ConsumeReady (.decodeFrame 3) 0x03 [0x02] ∧ s.block.idx ≠ 0 ∧ s.block.idx.toNat + 1 ≠ s.block.curLen.toNat
      ∧ (unescStep s.block.uState s.block.escErr 0x03).out = none :=
  ⟨⟨⟨rfl, rfl, rfl⟩, rfl, by decide, rfl⟩, by decide, by decide, rfl⟩
theorem witness_DecodeFrameDelaysOutput :
    let s (d : List Byte) : State := ⟨{ running 4 6 3 with dl := d }, pushed [0x07]⟩
    (∀ d, (s d).ConsumeReady (.decodeFrame 6) 0x07 []) ∧ (∀ d, (s d).block.idx ≠ 0)
      ∧ (∀ d, (s d).block.idx.toNat + 1 ≠ (s d).block.curLen.toNat)
      ∧ (∀ d, (unescStep (s d).block.uState (s d).block.escErr 0x07).out = some 0x07)
      ∧ (s [0x01]).block.dl.length < 2 ∧ (s [0x01, 0x00]).block.dl = [0x01, 0x00] :=
  ⟨fun _ => ⟨⟨rfl, rfl, rfl⟩, rfl, (by decide : (3 : Word32) < 6), rfl⟩, fun _ => (by decide : (3 : Word32) ≠ 0),
    fun _ => (by decide : 3 + 1 ≠ 6), fun _ => rfl, by decide, rfl⟩
theorem witness_DecodeFrameCompletesWithVerdict :
    State.CompleteReady ⟨{ finished 4 4 with dl := [0x00, 0x00] }, pushed []⟩ (.decodeFrame 4) :=
  ⟨⟨rfl, rfl, rfl⟩, rfl, rfl, rfl⟩
theorem witness_DelayLineHoldsLastTwo : (running 4 6 1).dl = [] := rfl
theorem witness_EmitWritesHeadOfStage : (emitting 0 [0x03, 0x04]).EmitReady (.escape 3) 0x03 [0x04] :=
  ⟨⟨rfl, rfl, rfl⟩, rfl, rfl⟩
theorem witness_TailOfSilentCommands :
    (runningWith 0 0 0 []).TailReady (.escape 0) ∧ (runningWith 1 1 1 []).TailReady (.unescape 1)
      ∧ (runningWith 4 0 0 []).TailReady (.decodeFrame 0)
      ∧ ∃ n, Instr.unescape 1 = .escape n ∨ Instr.unescape 1 = .unescape n ∨ Instr.unescape 1 = .decodeFrame n :=
  ⟨⟨⟨rfl, rfl, rfl⟩, rfl, rfl, rfl⟩, ⟨⟨rfl, rfl, rfl⟩, rfl, rfl, rfl⟩, ⟨⟨rfl, rfl, rfl⟩, rfl, rfl, rfl⟩, 1, .inr (.inl rfl)⟩
theorem witness_CompleteOfUnfailingCommands :
    State.CompleteReady ⟨finished 0 0, pushed []⟩ (.escape 0) ∧ State.CompleteReady ⟨finished 2 5, pushed []⟩ (.checksum 5)
      ∧ State.CompleteReady ⟨finished 3 1, pushed []⟩ (.encodeFrame 1)
      ∧ ∃ n, Instr.checksum 5 = .escape n ∨ Instr.checksum 5 = .checksum n ∨ Instr.checksum 5 = .encodeFrame n :=
  ⟨⟨⟨rfl, rfl, rfl⟩, rfl, rfl, rfl⟩, ⟨⟨rfl, rfl, rfl⟩, rfl, rfl, rfl⟩, ⟨⟨rfl, rfl, rfl⟩, rfl, rfl, rfl⟩, 5, .inr (.inl rfl)⟩
theorem witness_BlockHoldsWhileWaiting_output :
    let s : State := ⟨(emitting 3 [0x01]).block, { pushed [] with outAccepts := false }⟩
    s.Running (.encodeFrame 3) ∧ s.block.stage ≠ [] ∧ s.host.outAccepts = false :=
  ⟨⟨rfl, rfl, rfl⟩, by decide, rfl⟩
theorem witness_BlockHoldsWhileWaiting_input :
    (runningWith 2 1 0 []).Running (.checksum 1) ∧ (runningWith 2 1 0 []).block.stage = []
      ∧ (runningWith 2 1 0 []).block.idx < (runningWith 2 1 0 []).block.curLen
      ∧ (runningWith 2 1 0 []).host.inQ = [] := ⟨⟨rfl, rfl, rfl⟩, rfl, by decide, rfl⟩
theorem witness_BlockHoldsWhileWaiting_word :
    let s : State := ⟨running 2 1 0, { pushed [0x07] with cmdQ := [0x0] }⟩
    s.block.phase = .run ∧ s.host.script = [] ∧ ∃ t, step s = .next t := ⟨rfl, rfl, _, rfl⟩
theorem witness_BlockHoldsWhileWaiting_idle :
    let s : State := ⟨{ finished 2 1 with phase := .idle, cmpl := true, acc := 0x07 }, pushed []⟩
    s.Inv ∧ s.block.phase = .idle ∧ s.host.script = [] ∧ s.host.cmdQ = [] :=
  ⟨by constructor <;> decide, rfl, rfl, rfl⟩
theorem witness_CommandFrameOnHostSide : ∃ t, exec (.escape 1) (runningWith 0 1 0 [0x01]) = .next t := ⟨_, rfl⟩
theorem witness_CommandFrameOnBlock :
    (runningWith 2 1 0 [0x01]).block.phase = .run ∧ (∃ t, exec (.checksum 1) (runningWith 2 1 0 [0x01]) = .next t)
      ∧ (∃ n, Instr.unescape 0 = .escape n ∨ Instr.unescape 0 = .unescape n)
      ∧ (∃ n, Instr.checksum 1 = .escape n ∨ Instr.checksum 1 = .checksum n ∨ Instr.checksum 1 = .encodeFrame n)
      ∧ ∀ n, Instr.checksum 1 ≠ .decodeFrame n :=
  ⟨rfl, ⟨_, rfl⟩, ⟨0, .inr rfl⟩, ⟨1, .inr (.inl rfl)⟩, fun _ h => by cases h⟩
theorem witness_OutputStreamOnlyGrows : ∃ t, step (emitting 0 [0x03, 0x04]) = .next t := ⟨_, rfl⟩
theorem witness_EveryStepKeepsInvariant :
    (emitting 0 [0x03, 0x04]).Inv ∧ ∃ t, step (emitting 0 [0x03, 0x04]) = .next t :=
  ⟨by constructor <;> decide, _, rfl⟩
theorem witness_StepNeverStops : (runningWith 4 7 3 [0x00]).Inv := by constructor <;> decide
theorem witness_AtMostOneEventEnabled : (runningWith 1 2 2 []).Inv := by constructor <;> decide
theorem witness_StuckExactlyWhenNothingEnabled :
    (runningWith 0 1 0 []).Inv ∧ (runningWith 0 1 0 []).host.script = [] := ⟨by constructor <;> decide, rfl⟩
theorem witness_OutcntNeverWraps :
    let s := emitting 0 [0x03, 0x04]
    s.Inv ∧ s.block.OutBounded ∧ ∃ t, step s = .next t ∧ t.host.outStream.length = s.host.outStream.length + 1 :=
  ⟨by constructor <;> decide, (by decide : 0 + 2 ≤ 2 * 1 + 1 + 0), _, rfl, rfl⟩
theorem witness_SupplyCommutesWithBlockEvent :
    let s := runningWith 2 1 0 [0x07]
    s.Inv ∧ (((∃ w, HostAction.push 0x01 = .offer w) ∨ ∃ x, HostAction.push 0x01 = .push x))
      ∧ ((∃ w, HostAction.offer 0x00 = .offer w) ∨ ∃ x, HostAction.offer 0x00 = .push x)
      ∧ ∃ t, blockTurn s = .next t ∧ t ≠ s :=
  ⟨by constructor <;> decide, .inr ⟨_, rfl⟩, .inl ⟨_, rfl⟩, _, rfl, by decide⟩
/-- A legal word with its input and a surplus byte, and an illegal word with none of its own (R129, R130). -/
theorem witness_RunAgreesWithTransaction_legal :
    (offered 0x0000000200000001 [0x00, 0x03, 0x99]).Supplied 0x0000000200000001 [0x00, 0x03] [0x99] where
  idle := rfl
  port := rfl
  bytes := rfl
  exact_length i h := by
    have e : decodeCmd 0x0000000200000001 = .ok (.unescape 2) := by decide
    rw [e] at h
    cases h
    rfl
  no_input_if_illegal e h := by
    have e' : decodeCmd 0x0000000200000001 = .ok (.unescape 2) := by decide
    rw [e'] at h
    cases h
  accepts := rfl
  quiet := rfl
theorem witness_RunAgreesWithTransaction_illegal : (offered 0x5 [0xAA]).Supplied 0x5 [] [0xAA] where
  idle := rfl
  port := rfl
  bytes := rfl
  exact_length i h := by
    have e : decodeCmd 0x5 = .error .reservedOp := by decide
    rw [e] at h
    cases h
  no_input_if_illegal _ _ := rfl
  accepts := rfl
  quiet := rfl
/-- ESCAPE of one byte that the host pushes after ACCEPT, while output is at first withheld. -/
theorem witness_AgreementUnderAnyHostTiming :
    let s : State :=
      ⟨Block.reset,
        { HostSide.powerOn with
          outAccepts := false, script := [.blockTurn, .push 0x07, .blockTurn, .blockTurn, .readReg 0, .accepting true] }⟩
    (Instr.escape 1).wellFormed = true ∧ s.block.phase = .idle
      ∧ (∀ x ∈ s.host.script, x.keepsCommand = true)
      ∧ ∃ a t, exec (.escape 1) s = .next a ∧ Sys2Proof.core.run 9 a = .next t ∧ t.block.phase = .idle
        ∧ ∀ (k : Nat) (u : State), k < 9 → Sys2Proof.core.run k a = .next u → u.block.phase = .run := by
  refine ⟨by decide, rfl, by decide, _, _, rfl, rfl, rfl, ?_⟩
  intro k u hk h
  interval_cases k <;> (injection h with h; subst h; rfl)
theorem witness_HostSeesLastCommandsOutput :
    (offered 0x5 [0xAA]).Supplied 0x5 [] [0xAA]
      ∧ ∃ t, Sys2Proof.core.run (eventCount 0x5 []) (offered 0x5 [0xAA]) = .next t :=
  ⟨witness_RunAgreesWithTransaction_illegal, _, rfl⟩
theorem witness_CommandIsBusyUntilItsLastEvent :
    (offered 0x0000000200000001 [0x00, 0x03, 0x99]).Supplied 0x0000000200000001 [0x00, 0x03] [0x99]
      ∧ decodeCmd 0x0000000200000001 = .ok (.unescape 2) ∧ 0 < 5
      ∧ 5 < eventCount 0x0000000200000001 [0x00, 0x03] :=
  ⟨witness_RunAgreesWithTransaction_legal, by decide, by decide, by decide⟩
theorem witness_CodesEachCommandEndsWith :
    decodeCmd 0x6 = .error .reservedOp
      ∧ (ResultCode.malformedPayload = ResultCode.ok ∨ ResultCode.malformedPayload = .malformedPayload)
      ∧ ResultCode.invalidChecksum ≠ ResultCode.illegalCommand := by decide
theorem witness_EscapeProperties : (escape [0x00, 0x01])[1]? = some 0x03 := by decide
theorem witness_ChecksumSensitivity :
    ([0x01, 0x02] : List Byte).Perm [0x02, 0x01] ∧ (0x00 : Byte) ≠ 0xFF := by decide
theorem witness_EncodedFrameShape : (frameInterior (encodeFrame [0x01]))[0]? = some 0x03 := by decide
theorem witness_TamperedPayloadIsRejected : (0x01 : Byte) ≠ 0x02 := by decide
theorem witness_AcceptedFrames : decodeFrame [0x01, 0x02, 0x02, 0x00, 0x02] = .ok [0x02] := by decide
theorem witness_BoundaryRejection :
    ([0x00, 0x00, 0x02] : List Byte).length < 4
      ∧ (4 ≤ ([0x00, 0x00, 0x00, 0x02] : List Byte).length
        ∧ (([0x00, 0x00, 0x00, 0x02] : List Byte).head? ≠ some 0x01
          ∨ ([0x00, 0x00, 0x00, 0x02] : List Byte).getLast? ≠ some 0x02)) := by decide

end Sys2Proof.Machine.Tests
end

section
/-! SUPPORT. What a command and a step of the machine can do, each said once as an inversion: every statement about the
block's state, and about what it exchanges with its host, is a case analysis over these. -/

namespace Sys2Proof.Machine

/-! ## The events of one command -/

/-- What `exec i` can do in a state: wait, or one of the five events of R69 to R73 with the whole next state. -/
inductive CommandStep (i : Instr) (s : State) : State → Prop
  | wait : CommandStep i s s
  | accept (hp : s.block.phase = .idle) :
      CommandStep i s { s with block := s.block.acceptLegal (handlersOf i) i }
  | emit {x : Byte} {xs : List Byte} (r : s.EmitReady i x xs) :
      CommandStep i s
        { block := { s.block with stage := xs, outcnt := s.block.outcnt + 1 }, host := s.host.outWrite x }
  | consume {x : Byte} {xs : List Byte} (r : s.ConsumeReady i x xs) :
      CommandStep i s
        { block := { (handlersOf i).onByte x s.block with idx := ((handlersOf i).onByte x s.block).idx + 1 }
          host := { s.host with inQ := xs } }
  | tail (r : s.TailReady i) :
      CommandStep i s { s with block := { (handlersOf i).onTail s.block with tailDone := true } }
  | complete (r : s.CompleteReady i) :
      CommandStep i s
        { s with block := { s.block.report ((handlersOf i).verdict s.block) with phase := .idle } }

/-- The command that CUR_OP and CUR_LEN hold in RUN is in progress. -/
theorem State.Running.of_holds {s : State} {i : Instr} (hp : s.block.phase = .run) (hh : s.block.holds i = true) :
    s.Running i := by
  simp only [Block.holds, Bool.and_eq_true, decide_eq_true_eq] at hh
  exact ⟨hp, hh.1, hh.2⟩

/-- The events of a command in progress. -/
theorem advance_commandStep {s : State} {i : Instr} (r : s.Running i) :
    CommandStep i s (s.advance (handlersOf i)) := by
  obtain ⟨he, e⟩ | ⟨-, hc, e⟩ | ⟨-, -, ht, e⟩ | ⟨-, -, -, hc, e⟩ | ⟨-, -, -, -, e⟩ :=
    advance_cases s (handlersOf i)
  · obtain ⟨hs, ha⟩ := (emitEnabled_iff s).1 he
    obtain ⟨x, xs, hs⟩ := List.exists_cons_of_ne_nil hs
    rw [e, emit_eq hs]
    exact .emit ⟨r, hs, ha⟩
  · obtain ⟨-, hs, hi, hq⟩ := (consumeEnabled_iff s).1 hc
    obtain ⟨x, xs, hq⟩ := List.exists_cons_of_ne_nil hq
    rw [e, consume_eq _ hq]
    exact .consume ⟨r, hs, hi, hq⟩
  · obtain ⟨-, hi, hs, ht⟩ := (tailEnabled_iff s).1 ht
    rw [e]
    exact .tail ⟨r, hi, hs, ht⟩
  · obtain ⟨-, hi, ht, hs⟩ := (completeEnabled_iff s).1 hc
    rw [e]
    exact .complete ⟨r, hi, hs, ht⟩
  · rw [e]
    exact .wait

/-- Everything `exec` can do, for every command and every state. -/
theorem exec_commandStep {i : Instr} {s t : State} (h : exec i s = .next t) : CommandStep i s t := by
  cases hp : s.block.phase with
  | idle =>
    rw [exec_eq, commandEvent_idle _ _ hp, Host.Outcome.next.injEq] at h
    subst h
    exact .accept hp
  | run =>
    obtain rfl | ⟨hh, rfl⟩ := exec_run_cases hp h
    · exact .wait
    · exact advance_commandStep (State.Running.of_holds hp hh)

/-! ## The events of the machine -/

/-- What a step can do to the block and to the output stream: nothing (a wait, or an action of the host), a reset, ACCEPT
of an illegal word, an EMIT on behalf of no command (only in states outside the invariant, assumption 6), or an event of
a command. -/
inductive StepEvent (s t : State) : Prop
  | quiet (hb : t.block = s.block) (ho : t.host.outStream = s.host.outStream)
  | reset (hb : t.block = Block.reset) (ho : t.host.outStream = s.host.outStream)
  | illegal (hb : t.block = s.block.acceptIllegal) (hp : s.block.phase = .idle)
      (ho : t.host.outStream = s.host.outStream)
  | strayEmit {x : Byte} {xs : List Byte} (hs : s.block.stage = x :: xs)
      (hb : t.block = { s.block with stage := xs, outcnt := s.block.outcnt + 1 })
      (ho : t.host.outStream = s.host.outStream ++ [x])
  | command {i : Instr} {u : State} (hb : u.block = s.block) (ho : u.host.outStream = s.host.outStream)
      (e : CommandStep i u t)

/-- An EMIT outside any command writes the head of STAGE (R71). -/
theorem StepEvent.of_emit {s : State} (he : s.emitEnabled = true) : StepEvent s s.emit := by
  obtain ⟨x, xs, hs⟩ := List.exists_cons_of_ne_nil ((emitEnabled_iff s).1 he).1
  rw [emit_eq hs]
  exact .strayEmit hs rfl rfl

/-- ACCEPT of a word at the command port, `s` with the word removed from its queue (R69). -/
theorem StepEvent.of_acceptWord {s t : State} {w : Word64} (hp : s.block.phase = .idle)
    (h : s.acceptWord w = .next t) : StepEvent s t := by
  unfold State.acceptWord at h
  cases hd : decodeCmd w with
  | ok i =>
    rw [hd] at h
    exact .command rfl rfl (exec_commandStep h)
  | error e =>
    rw [hd] at h
    cases h
    exact .illegal rfl hp rfl

/-- Only the block and the bytes already written matter to what a step does. -/
theorem StepEvent.of_same {r s t : State} (e : StepEvent r t) (hb : r.block = s.block)
    (ho : r.host.outStream = s.host.outStream) : StepEvent s t := by
  cases e with
  | quiet hb' ho' => exact .quiet (hb'.trans hb) (ho'.trans ho)
  | reset hb' ho' => exact .reset hb' (ho'.trans ho)
  | illegal hb' hp ho' => exact .illegal (hb ▸ hb') (hb ▸ hp) (ho'.trans ho)
  | strayEmit hs hb' ho' => exact .strayEmit (hb ▸ hs) (hb ▸ hb') (ho ▸ ho')
  | command hb' ho' e => exact .command (hb'.trans hb) (ho'.trans ho) e

/-- Everything a turn of the block can do. -/
theorem blockTurn_event {s t : State} (h : blockTurn s = .next t) : StepEvent s t := by
  cases hp : s.block.phase with
  | idle =>
    cases hq : s.host.cmdQ with
    | cons w ws =>
      rw [blockTurn_idle_word hp hq] at h
      exact (StepEvent.of_acceptWord (by exact hp) h).of_same rfl rfl
    | nil =>
      rw [blockTurn_idle_none hp hq] at h
      split at h
      · next he =>
        cases h
        exact .of_emit he
      · cases h
        exact .quiet rfl rfl
  | run =>
    cases hc : s.block.current with
    | some i =>
      rw [blockTurn_run hp hc] at h
      exact .command rfl rfl (exec_commandStep h)
    | none =>
      simp only [blockTurn, hp, hc] at h
      split at h
      · next he =>
        cases h
        exact .of_emit he
      · cases h

/-- No action of the host but reset changes the block (R23). -/
theorem State.hostAct_block {a : HostAction} (s : State) (ha : a ≠ .assertReset) :
    (s.hostAct a).block = s.block := by
  cases a with
  | assertReset => exact absurd rfl ha
  | _ => rfl

/-- No action of the host changes the bytes already written (R41, R126). -/
theorem State.hostAct_outStream (s : State) (a : HostAction) :
    (s.hostAct a).host.outStream = s.host.outStream := by
  cases a <;> rfl

/-- An action of the host is a reset of the block or leaves it alone. -/
theorem StepEvent.of_hostAct (s : State) (a : HostAction) : StepEvent s (s.hostAct a) := by
  by_cases ha : a = .assertReset
  · subst ha
    exact .reset rfl rfl
  · exact .quiet (s.hostAct_block ha) (s.hostAct_outStream a)

/-- Everything a step can do to the block and to the output stream. -/
theorem step_event {s t : State} (h : step s = .next t) : StepEvent s t := by
  obtain ⟨rest, -, h⟩ | ⟨rest, -, rfl⟩ | ⟨a, rest, -, rfl⟩ := step_cases h
  · exact (blockTurn_event h).of_same rfl rfl
  · exact .quiet rfl rfl
  · exact (StepEvent.of_hostAct (s.withScript rest) a).of_same rfl rfl

/-- When the next action is the host's own, the step is that action (R53). -/
theorem step_hostAction {s : State} {a : HostAction} {rest : List HostAction} (hs : s.host.script = a :: rest)
    (hb : a ≠ .blockTurn) (hp : a ≠ .poll) : step s = .next ((s.withScript rest).hostAct a) := by
  unfold step turn
  rw [hs]
  cases a with
  | blockTurn => exact absurd rfl hb
  | poll => exact absurd rfl hp
  | _ => rfl

end Sys2Proof.Machine
end

section
/-! SUPPORT. The block ACCEPT makes, and what each handler of R74 leaves of the block beyond `onByte_frame`. -/

namespace Sys2Proof.Machine

/-- The block after ACCEPT of a legal command: nothing of the block before is left in it (R69, R32). -/
theorem Block.acceptLegal_eq (b : Block) (i : Instr) :
    b.acceptLegal (handlersOf i) i =
      { code := 0, cmpl := false, outcnt := 0, acc := 0, phase := .run
        curOp := i.op, curLen := i.lenField, idx := 0
        stage := if i = .encodeFrame i.len then [0x01] else []
        tailDone := false, uState := .normal, escErr := false, dl := []
        sofBad := false, eofBad := false } := by
  cases i with
  | encodeFrame n =>
    simp only [Instr.len, if_true]
    rfl
  | _ => rfl

/-- ESCAPE and UNESCAPE leave ACC alone at CONSUME (R22). -/
theorem onByte_acc {i : Instr} (x : Byte) (b : Block) (hi : ∃ n, i = .escape n ∨ i = .unescape n) :
    ((handlersOf i).onByte x b).acc = b.acc := by
  obtain ⟨n, rfl | rfl⟩ := hi <;> rfl

/-- U_STATE and ESC_ERR are left alone by a byte of any command but UNESCAPE and DECODE_FRAME (R34). -/
theorem onByte_unescape_frame {i : Instr} (x : Byte) (b : Block)
    (hi : ∃ n, i = .escape n ∨ i = .checksum n ∨ i = .encodeFrame n) :
    ((handlersOf i).onByte x b).uState = b.uState ∧ ((handlersOf i).onByte x b).escErr = b.escErr := by
  obtain ⟨n, rfl | rfl | rfl⟩ := hi <;> exact ⟨rfl, rfl⟩

/-- DL, SOF_BAD and EOF_BAD are left alone by a byte of any command but DECODE_FRAME (R34). -/
theorem onByte_decode_frame {i : Instr} (x : Byte) (b : Block) (hi : ∀ n, i ≠ .decodeFrame n) :
    ((handlersOf i).onByte x b).dl = b.dl ∧ ((handlersOf i).onByte x b).sofBad = b.sofBad
      ∧ ((handlersOf i).onByte x b).eofBad = b.eofBad := by
  cases i with
  | decodeFrame n => exact absurd rfl (hi n)
  | _ => exact ⟨rfl, rfl, rfl⟩

/-- The delay line never holds more than two bytes (R30, R102). -/
theorem dlPush_dl_length {b : Block} (u : Byte) (hd : b.dl.length ≤ 2) : (b.dlPush u).dl.length ≤ 2 := by
  rcases Nat.lt_or_ge b.dl.length 2 with h | h
  · rw [dlPush_short u h]
    simpa using h
  · obtain ⟨old, young, e⟩ := List.length_eq_two.1 (by omega : b.dl.length = 2)
    rw [dlPush_full u e]
    exact le_refl 2

/-- A byte keeps the capacity of the delay line (R30). -/
theorem onByte_dl_length (i : Instr) (x : Byte) {b : Block} (hd : b.dl.length ≤ 2) :
    ((handlersOf i).onByte x b).dl.length ≤ 2 := by
  cases i with
  | decodeFrame n =>
    simp only [handlersOf, decodeFrameHandlers, decodeOnByte]
    split
    · exact hd
    · exact hd
    · split
      · exact hd
      · exact dlPush_dl_length _ hd
  | _ => exact hd

/-- Every command's OP is one of the five operations (R57). -/
theorem op_le_four (i : Instr) : i.op ≤ 4 := by
  cases i <;> simp [Instr.op]

end Sys2Proof.Machine
end

section
/-! O39, O40. The invariant holds at reset, and each event keeps it: one lemma for each event of R69 to R73 on the block,
assembled over `CommandStep` and `StepEvent`. -/

namespace Sys2Proof.Machine

/-- The reset values of R33 meet every clause of R34. -/
theorem Block.Inv.reset : Block.reset.Inv := by
  constructor <;> decide

/-- ACCEPT of a legal command starts from cleared elements and a legal OP. -/
theorem Block.Inv.acceptLegal (b : Block) (i : Instr) : (b.acceptLegal (handlersOf i) i).Inv := by
  rw [Block.acceptLegal_eq]
  exact {
    idle_stage := nofun
    stage_cap := by dsimp only; split <;> decide
    dl_cap := Nat.zero_le 2
    idx_le := Nat.zero_le i.lenField.toNat
    fresh := nofun
    unesc_op := by simp
    decode_op := by simp
    code_le := ResultCode.ok.value_le
    op_le := op_le_four i
    busy_code := fun _ => ⟨rfl, rfl⟩
    tail_idx := nofun
    csum_zero := fun _ => rfl }

/-- ACCEPT of an illegal word leaves CUR_OP and CUR_LEN alone and sets CMPL. -/
theorem Block.Inv.acceptIllegal {b : Block} (h : b.Inv) (hp : b.phase = .idle) : b.acceptIllegal.Inv where
  idle_stage _ := rfl
  stage_cap := Nat.zero_le 5
  dl_cap := Nat.zero_le 2
  idx_le := Nat.zero_le b.curLen.toNat
  fresh := nofun
  unesc_op := by simp
  decode_op := by simp
  code_le := ResultCode.illegalCommand.value_le
  op_le := h.op_le
  busy_code hr := by simp [hp] at hr
  tail_idx := nofun
  csum_zero _ := rfl

/-- EMIT needs a byte in STAGE, so the block is in RUN, and it makes STAGE shorter. -/
theorem Block.Inv.emit {b : Block} (h : b.Inv) {x : Byte} {xs : List Byte} (hs : b.stage = x :: xs) :
    Block.Inv { b with stage := xs, outcnt := b.outcnt + 1 } := by
  have hrun : b.phase ≠ .idle := fun hp => by simpa [hs] using h.idle_stage hp
  have hcap := h.stage_cap
  rw [hs, List.length_cons] at hcap
  exact { h with
    idle_stage := fun hp => absurd hp hrun
    stage_cap := Nat.le_of_succ_le hcap
    fresh := fun hp => absurd hp hrun }

section Consume
variable {b : Block} {i : Instr} (h : b.Inv) (ho : b.curOp = i.op) (x : Byte)
include h ho

/-- A byte raises ESC_ERR or U_STATE only under the two commands that unescape. -/
theorem Block.Inv.onByte_unesc_op
    (hu : ((handlersOf i).onByte x b).escErr = true ∨ ((handlersOf i).onByte x b).uState = .escaped) :
    b.curOp = 1 ∨ b.curOp = 4 := by
  cases i with
  | unescape n => exact .inl ho
  | decodeFrame n => exact .inr ho
  | _ => exact h.unesc_op hu

/-- A byte uses DL, SOF_BAD and EOF_BAD only under DECODE_FRAME. -/
theorem Block.Inv.onByte_decode_op
    (hd : ((handlersOf i).onByte x b).dl ≠ [] ∨ ((handlersOf i).onByte x b).sofBad = true
      ∨ ((handlersOf i).onByte x b).eofBad = true) : b.curOp = 4 := by
  cases i with
  | decodeFrame n => exact ho
  | _ => exact h.decode_op hd

/-- A byte leaves CSUM 0 under ESCAPE and UNESCAPE. -/
theorem Block.Inv.onByte_csum_zero (hop : b.curOp ≤ 1) : ((handlersOf i).onByte x b).acc = 0 := by
  have hacc := h.csum_zero hop
  cases i with
  | escape n => exact hacc
  | unescape n => exact hacc
  | _ => simp [ho, Instr.op] at hop

/-- CONSUME starts from an empty STAGE, and IDX is still below CUR_LEN (R70). -/
theorem Block.Inv.consume (hp : b.phase = .run) (hs : b.stage = []) (hlt : b.idx < b.curLen) :
    Block.Inv { (handlersOf i).onByte x b with idx := ((handlersOf i).onByte x b).idx + 1 } := by
  obtain ⟨fop, flen, fidx, fphase, fcode, fcmpl, ftail, -⟩ := onByte_frame i x b
  have hrun : ((handlersOf i).onByte x b).phase ≠ .idle := by simp [fphase, hp]
  exact {
    idle_stage := fun hi => absurd hi hrun
    stage_cap := (onByte_stage_length i x hs h.dl_cap).trans (by decide)
    dl_cap := onByte_dl_length i x h.dl_cap
    idx_le := by simp only [fidx, flen]; bv_omega
    fresh := fun hi => absurd hi hrun
    unesc_op := fun hu => by simpa only [fop] using h.onByte_unesc_op ho x hu
    decode_op := fun hd => by simpa only [fop] using h.onByte_decode_op ho x hd
    code_le := by simpa only [fcode] using h.code_le
    op_le := by simpa only [fop] using h.op_le
    busy_code := fun _ => by simpa only [fcode, fcmpl] using h.busy_code hp
    tail_idx := fun ht => by
      have hidx := h.tail_idx (ftail ▸ ht)
      rw [hidx] at hlt
      exact absurd hlt (BitVec.lt_irrefl _)
    csum_zero := fun hop => h.onByte_csum_zero ho x (by simpa only [fop] using hop) }

end Consume

/-- TAIL stages at most five bytes into an empty STAGE, with IDX = CUR_LEN (R72, R77). -/
theorem Block.Inv.tail {b : Block} (h : b.Inv) (i : Instr) (hp : b.phase = .run) (hs : b.stage = [])
    (hidx : b.idx = b.curLen) : Block.Inv { (handlersOf i).onTail b with tailDone := true } := by
  rw [onTail_frame]
  exact { h with
    idle_stage := fun hi => by simp [hp] at hi
    stage_cap := onTail_stage_length i hs
    fresh := fun hi => by simp [hp] at hi
    tail_idx := fun _ => hidx }

/-- COMPLETE reports a code of R110 and sets CMPL, with nothing left in STAGE (R73). -/
theorem Block.Inv.complete {b : Block} (h : b.Inv) (c : ResultCode) (hs : b.stage = []) :
    Block.Inv { b.report c with phase := .idle } :=
  { h with
    idle_stage := fun _ => hs
    fresh := nofun
    code_le := c.value_le
    busy_code := nofun }

/-- Every event of a command keeps the invariant. -/
theorem CommandStep.inv {i : Instr} {s t : State} (e : CommandStep i s t) (h : s.block.Inv) : t.block.Inv := by
  cases e with
  | wait => exact h
  | accept hp => exact Block.Inv.acceptLegal s.block i
  | emit r => exact h.emit r.stage
  | consume r => exact h.consume r.op _ r.run r.stage r.idx
  | tail r => exact h.tail i r.run r.stage r.idx
  | complete r => exact h.complete _ r.stage

/-- Settles O39. -/
theorem invariantHoldsAtReset : Obligations.InvariantHoldsAtReset := Block.Inv.reset

/-- Settles O40, by cases on what the step does to the block. -/
theorem everyStepKeepsInvariant : Obligations.EveryStepKeepsInvariant := by
  intro s t h hstep
  change t.block.Inv
  cases step_event hstep with
  | quiet hb _ => rw [hb]; exact h
  | reset hb _ => rw [hb]; exact Block.Inv.reset
  | illegal hb hp _ => rw [hb]; exact Block.Inv.acceptIllegal h hp
  | strayEmit hs hb _ => rw [hb]; exact Block.Inv.emit h hs
  | command hb _ e => exact e.inv (hb ▸ h)

end Sys2Proof.Machine
end

section
/-! O36, O37. What an event of a command leaves of the host's side and of the block, by cases on `CommandStep`. -/

namespace Sys2Proof.Machine

/-- Settles O36: EMIT and CONSUME alone touch the host's side, each one stream. -/
theorem commandFrameOnHostSide : Obligations.CommandFrameOnHostSide := by
  intro i s t h
  cases exec_commandStep h with
  | wait | accept | tail | complete => exact ⟨rfl, rfl, rfl, rfl, .inl rfl, .inl rfl⟩
  | emit r => exact ⟨rfl, rfl, rfl, rfl, .inl rfl, .inr ⟨_, _, r.stage, rfl⟩⟩
  | consume r => exact ⟨rfl, rfl, rfl, rfl, .inr ⟨_, r.input⟩, .inl rfl⟩

/-- Settles O37: only CONSUME and TAIL run a handler, and `onTail_frame` leaves all these elements alone. -/
theorem commandFrameOnBlock : Obligations.CommandFrameOnBlock := by
  intro i s t hp h
  cases exec_commandStep h with
  | accept hi => simp [hp] at hi
  | wait | emit | complete => exact ⟨rfl, rfl, fun _ => rfl, fun _ => ⟨rfl, rfl⟩, fun _ => ⟨rfl, rfl, rfl⟩⟩
  | @consume x _ r =>
    obtain ⟨fop, flen, -⟩ := onByte_frame i x s.block
    exact ⟨fop, flen, onByte_acc x s.block, onByte_unescape_frame x s.block, onByte_decode_frame x s.block⟩
  | tail r =>
    rw [onTail_frame]
    exact ⟨rfl, rfl, fun _ => rfl, fun _ => ⟨rfl, rfl⟩, fun _ => ⟨rfl, rfl, rfl⟩⟩

end Sys2Proof.Machine
end

section
/-! O44. Each event keeps `OutBounded` (R21): EMIT moves a byte from STAGE to OUTCNT, CONSUME pays for two staged bytes
with IDX, and TAIL pays for five with TAIL_DONE. -/

namespace Sys2Proof.Machine

/-- Under the bound OUTCNT is far below `2 ^ 64`, so counting a byte does not wrap (R21). -/
theorem Block.OutBounded.outcnt_succ {b : Block} (h : b.OutBounded) :
    (b.outcnt + 1).toNat = b.outcnt.toNat + 1 := by
  have hi := b.idx.isLt
  have hb : b.outcnt.toNat ≤ 2 * b.idx.toNat + 1 + 5 := by
    simp only [Block.OutBounded, Config.stageCap_eq] at h
    split at h <;> omega
  bv_omega

/-- ACCEPT counts nothing yet and stages one byte at most (R98). -/
theorem Block.OutBounded.acceptLegal (b : Block) (i : Instr) : (b.acceptLegal (handlersOf i) i).OutBounded := by
  rw [Block.acceptLegal_eq]
  unfold Block.OutBounded
  dsimp only
  split <;> simp

/-- EMIT moves one byte from STAGE into the count (R71). -/
theorem Block.OutBounded.emit {b : Block} (h : b.OutBounded) {x : Byte} {xs : List Byte} (hs : b.stage = x :: xs) :
    Block.OutBounded { b with stage := xs, outcnt := b.outcnt + 1 } := by
  have hc := h.outcnt_succ
  unfold Block.OutBounded at h ⊢
  rw [hs, List.length_cons] at h
  dsimp only
  omega

/-- CONSUME raises IDX by one, which pays for the two bytes it may stage (R70, R77). -/
theorem Block.OutBounded.consume {b : Block} (h : b.OutBounded) (i : Instr) (x : Byte) (hs : b.stage = [])
    (hd : b.dl.length ≤ 2) (hlt : b.idx < b.curLen) :
    Block.OutBounded
      { (handlersOf i).onByte x b with idx := ((handlersOf i).onByte x b).idx + 1 } := by
  obtain ⟨-, -, fidx, -, -, -, ftail, fout⟩ := onByte_frame i x b
  have hst := onByte_stage_length i x hs hd
  have hidx : (b.idx + 1).toNat = b.idx.toNat + 1 := by bv_omega
  unfold Block.OutBounded at h ⊢
  rw [hs, List.length_nil] at h
  simp only [fidx, ftail, fout, hidx]
  omega

/-- TAIL sets TAIL_DONE, which pays for the five bytes it may stage (R72, R77). -/
theorem Block.OutBounded.tail {b : Block} (h : b.OutBounded) (i : Instr) (hs : b.stage = [])
    (ht : b.tailDone = false) : Block.OutBounded { (handlersOf i).onTail b with tailDone := true } := by
  have hst := onTail_stage_length i hs
  rw [onTail_frame]
  simp only [Block.OutBounded, hs, ht, List.length_nil, Config.stageCap_eq, if_true, Bool.false_eq_true,
    if_false] at h ⊢
  omega

/-- Every event of a command keeps the bound. -/
theorem CommandStep.outBounded {i : Instr} {s t : State} (e : CommandStep i s t) (hd : s.block.dl.length ≤ 2)
    (h : s.block.OutBounded) : t.block.OutBounded := by
  cases e with
  | wait => exact h
  | accept hp => exact Block.OutBounded.acceptLegal s.block i
  | emit r => exact h.emit r.stage
  | consume r => exact h.consume i _ r.stage hd r.idx
  | tail r => exact h.tail i r.stage r.tailDone
  | complete r => exact h

/-- Every step keeps the bound. -/
theorem StepEvent.outBounded {s t : State} (e : StepEvent s t) (hd : s.block.dl.length ≤ 2)
    (h : s.block.OutBounded) : t.block.OutBounded := by
  cases e with
  | quiet hb _ => rw [hb]; exact h
  | reset hb _ => rw [hb]; exact Nat.zero_le _
  | illegal hb _ _ => rw [hb]; exact Nat.zero_le _
  | strayEmit hs hb _ => rw [hb]; exact h.emit hs
  | command hb _ e => exact e.outBounded (hb ▸ hd) (hb ▸ h)

/-- A command's event that writes a byte is EMIT, and adds 1 to OUTCNT (R71). -/
theorem CommandStep.outcnt_of_write {i : Instr} {s t : State} (e : CommandStep i s t)
    (hw : t.host.outStream.length = s.host.outStream.length + 1) : t.block.outcnt = s.block.outcnt + 1 := by
  cases e with
  | emit r => rfl
  | _ => simp at hw

/-- A step that writes a byte adds 1 to OUTCNT (R21). -/
theorem StepEvent.outcnt_of_write {s t : State} (e : StepEvent s t)
    (hw : t.host.outStream.length = s.host.outStream.length + 1) : t.block.outcnt = s.block.outcnt + 1 := by
  cases e with
  | quiet _ ho | reset _ ho | illegal _ _ ho => simp [ho] at hw
  | strayEmit _ hb _ => rw [hb]
  | command hb ho e => rw [← hb, e.outcnt_of_write (ho ▸ hw)]

/-- Settles O44. -/
theorem outcntNeverWraps : Obligations.OutcntNeverWraps := by
  constructor
  · intro s t hi h hstep
    exact (step_event hstep).outBounded hi.dl_cap h
  · intro s t _ h hstep hw
    rw [(step_event hstep).outcnt_of_write hw, h.outcnt_succ]

end Sys2Proof.Machine
end

section
/-! O6, O15, O16. `exec` of the command in progress and of an accepted one. -/

namespace Sys2Proof.Machine

/-- CUR_OP and CUR_LEN name the command in progress, when its LEN fits the field (R25). -/
theorem State.Running.current {s : State} {i : Instr} (r : s.Running i) (hw : i.wellFormed = true) :
    s.block.current = some i := by
  rw [Block.current, r.op, r.len, lenField_toNat hw, ofOp_op]

/-- Settles O6. -/
theorem stepRunsCommandInProgress : Obligations.StepRunsCommandInProgress := by
  intro s i r hw hs
  rw [step_quiet hs, blockTurn_run r.run (r.current hw)]

/-- Settles O15. -/
theorem acceptLatchesCommand : Obligations.AcceptLatchesCommand := by
  intro s i hp
  rw [exec_eq, commandEvent_idle _ _ hp, Block.acceptLegal_eq]
  rfl

/-- Settles O16: the block after ACCEPT of O15 mentions nothing of the block before. -/
theorem acceptForgetsEarlierCommands : Obligations.AcceptForgetsEarlierCommands := by
  intro s b i hs hb
  constructor
  · rw [acceptLatchesCommand s i hs, acceptLatchesCommand { s with block := b } i hb]
  · exact ⟨_, acceptLatchesCommand s i hs⟩

end Sys2Proof.Machine
end

section
/-! O9, O11 to O14. The reset values, the fields of STATUS, the read port, and each action of the host. -/

namespace Sys2Proof.Machine

/-- Settles O9. -/
theorem resetSetsEveryBlockElement : Obligations.ResetSetsEveryBlockElement :=
  ⟨State.assertReset_block, rfl, by decide⟩

/-- The slices of STATUS are its fields (R16, R18, R20). -/
theorem Block.status_slices (b : Block) :
    b.status.extractLsb' 0 3 = b.code ∧ b.status.extractLsb' 3 1 = BitVec.ofBool b.busy
      ∧ b.status.extractLsb' 4 1 = BitVec.ofBool b.cmpl ∧ b.status.extractLsb' 5 27 = 0 := by
  unfold Block.status
  generalize b.code = code, b.busy = busy, b.cmpl = cmpl
  revert code busy cmpl
  decide

/-- Settles O11. -/
theorem statusFields : Obligations.StatusFields := by
  intro b
  obtain ⟨hcode, hbusy, hcmpl, hzero⟩ := b.status_slices
  refine ⟨hcode, ?_, ?_, hzero⟩
  · rw [hbusy, Block.busy]
    cases b.phase <;> rfl
  · rw [hcmpl]
    cases b.cmpl <;> rfl

/-- Settles O12. -/
theorem registerReadPort : Obligations.RegisterReadPort := by
  intro b n
  refine ⟨?_, rfl, ?_, ?_, ?_⟩
  · exact BitVec.toNat_setWidth_of_le (by decide)
  · exact BitVec.toNat_setWidth_of_le (by decide)
  · intro h0 h1 h2
    match n with
    | 0 | 1 | 2 => contradiction
    | n + 3 => rfl
  · rintro s rfl
    rfl

/-- Settles O13: each action by the rule that a turn of the host is its action. -/
theorem hostActionEffects : Obligations.HostActionEffects := by
  refine ⟨fun s rest => ⟨?_, ?_, ?_, ?_, ?_, ?_⟩, fun s a ha => s.hostAct_block ha⟩ <;>
    exact fun _ hs => step_hostAction hs nofun nofun

/-- Settles O14. -/
theorem codeReadsZeroWhileBusy : Obligations.CodeReadsZeroWhileBusy := by
  intro b h hp
  obtain ⟨hcode, hbusy, hcmpl, -⟩ := statusFields b
  obtain ⟨code0, cmpl0⟩ := h.busy_code hp
  exact ⟨hcode.trans code0, by simpa [cmpl0] using hcmpl, by simpa [hp] using hbusy⟩

end Sys2Proof.Machine
end

section
/-! O5, O24, O38. The word an idle block accepts, CHECKSUM's tail, and what a step writes. -/

namespace Sys2Proof.Machine

/-- Settles O5. -/
theorem stepAcceptsOfferedCommand : Obligations.StepAcceptsOfferedCommand := by
  intro s w ws i hp hs hq hd
  rw [step_quiet hs, blockTurn_idle_word hp hq]
  simp only [State.acceptWord, hd]

/-- Settles O24. -/
theorem checksumTailStagesLittleEndian : Obligations.ChecksumTailStagesLittleEndian := by
  intro s len r
  rw [exec_running r.toRunning, advance_tail _ r]
  simp [handlersOf, checksumHandlers, Block.stageBytes, byteForm, lowByte_eq, highByte_eq, r.stage]

/-- Every event of a command but EMIT leaves the output stream alone (R41). -/
theorem CommandStep.outStream_grows {i : Instr} {s t : State} (e : CommandStep i s t) :
    ∃ bs, t.host.outStream = s.host.outStream ++ bs ∧ bs.length ≤ 1 := by
  cases e with
  | @emit x xs r => exact ⟨[x], rfl, le_refl 1⟩
  | _ => exact ⟨[], (List.append_nil _).symm, Nat.zero_le 1⟩

/-- Settles O38, by cases on what the step does to the output stream. -/
theorem outputStreamOnlyGrows : Obligations.OutputStreamOnlyGrows := by
  intro s t h
  cases step_event h with
  | quiet _ ho | reset _ ho | illegal _ _ ho => exact ⟨[], by simpa using ho, Nat.zero_le 1⟩
  | strayEmit _ _ ho => exact ⟨_, ho, le_refl 1⟩
  | command _ ho e => exact ho ▸ e.outStream_grows

end Sys2Proof.Machine
end

section
/-! O35, O43. When the block holds: `advance` changes the state exactly when an event of the command is enabled. -/

namespace Sys2Proof.Machine

/-- An event of a command in progress always changes something: EMIT shortens STAGE, CONSUME shortens the input, TAIL
sets TAIL_DONE and COMPLETE leaves RUN (R70 to R73). -/
theorem advance_eq_self_iff (s : State) (h : Handlers) :
    s.advance h = s ↔ s.consumeEnabled = false ∧ s.emitEnabled = false ∧ s.tailEnabled = false
      ∧ s.completeEnabled = false := by
  obtain ⟨he, e⟩ | ⟨-, hc, e⟩ | ⟨-, -, ht, e⟩ | ⟨-, -, -, hd, e⟩ | ⟨he, hc, ht, hd, e⟩ := advance_cases s h
  · obtain ⟨x, xs, hs⟩ := List.exists_cons_of_ne_nil ((emitEnabled_iff s).1 he).1
    have hne : s.emit ≠ s := fun h => by simpa [emit_eq hs, hs] using congrArg (·.block.stage) h
    simp [e, he, hne]
  · obtain ⟨-, -, -, hq⟩ := (consumeEnabled_iff s).1 hc
    obtain ⟨x, xs, hq⟩ := List.exists_cons_of_ne_nil hq
    have hne : s.consume h ≠ s := fun h => by simpa [consume_eq _ hq, hq] using congrArg (·.host.inQ) h
    simp [e, hc, hne]
  · obtain ⟨-, -, -, hd⟩ := (tailEnabled_iff s).1 ht
    have hne : s.tail h ≠ s := fun h => by simpa [State.tail, hd] using congrArg (·.block.tailDone) h
    simp [e, ht, hne]
  · obtain ⟨hp, -⟩ := (completeEnabled_iff s).1 hd
    have hne : s.complete h ≠ s := fun h => by simpa [State.complete, hp] using congrArg (·.block.phase) h
    simp [e, hd, hne]
  · simp [e, he, hc, ht, hd]

/-- ACCEPT takes exactly the head word: what stays at the command port is the queue it was given (R37, R69). -/
theorem acceptWord_cmdQ {s t : State} {w : Word64} (h : s.acceptWord w = .next t) : t.host.cmdQ = s.host.cmdQ := by
  unfold State.acceptWord at h
  split at h
  · exact (commandFrameOnHostSide _ _ _ h).1
  · cases h
    rfl

/-- An idle block of the invariant with no word offered has nothing to emit, and holds (R55). -/
theorem blockTurn_idle_holds {s : State} (hi : s.Inv) (hp : s.block.phase = .idle) (hq : s.host.cmdQ = []) :
    blockTurn s = .next s := by
  have he : s.emitEnabled = false := by simp [State.emitEnabled, hi.idle_stage hp]
  simp [blockTurn_idle_none hp hq, he]

/-- In RUN the invariant's block takes its turn for the command in progress (R67). -/
theorem blockTurn_running {s : State} (hi : s.Inv) (hp : s.block.phase = .run) :
    ∃ i, blockTurn s = .next (s.advance (handlersOf i)) := by
  obtain ⟨i, hc⟩ := hi.current
  have r : s.Running i := .of_holds hp (Block.current_holds hc)
  exact ⟨i, (blockTurn_run hp hc).trans (exec_running r)⟩

/-- Settles O43, by the phase and, in IDLE, by the command port. -/
theorem stuckExactlyWhenNothingEnabled : Obligations.StuckExactlyWhenNothingEnabled := by
  intro s hi hs
  unfold State.Stuck
  rw [step_quiet hs]
  cases hp : s.block.phase with
  | idle =>
    have hstage := hi.idle_stage hp
    cases hq : s.host.cmdQ with
    | nil =>
      simp [blockTurn_idle_holds hi hp hq, State.acceptEnabled, State.consumeEnabled, State.emitEnabled,
        State.tailEnabled, State.completeEnabled, hp, hq, hstage]
    | cons w ws =>
      have hacc : s.acceptEnabled = true := (acceptEnabled_iff s).2 ⟨hp, by simp [hq]⟩
      have hne : blockTurn s ≠ .next s := fun h => by
        rw [blockTurn_idle_word hp hq] at h
        simpa [hq] using acceptWord_cmdQ h
      simp [hne, hacc]
  | run =>
    obtain ⟨i, e⟩ := blockTurn_running hi hp
    simp [e, advance_eq_self_iff, State.acceptEnabled, hp]

/-- A block in RUN leaves the words at the command port (R37). -/
theorem blockTurn_run_cmdQ {s t : State} (hp : s.block.phase = .run) (h : blockTurn s = .next t) :
    t.host.cmdQ = s.host.cmdQ := by
  cases hc : s.block.current with
  | some i =>
    rw [blockTurn_run hp hc] at h
    exact (commandFrameOnHostSide _ _ _ h).1
  | none =>
    simp only [blockTurn, hp, hc] at h
    split at h
    · next he =>
      obtain ⟨x, xs, hs⟩ := List.exists_cons_of_ne_nil ((emitEnabled_iff s).1 he).1
      cases h
      rw [emit_eq hs]
      rfl
    · cases h

/-- Settles O35. -/
theorem blockHoldsWhileWaiting : Obligations.BlockHoldsWhileWaiting := by
  refine ⟨fun s i r => ⟨fun hst ha => ?_, fun hst hlt hq => ?_⟩, fun s t hp hs h => ?_, fun s hi hp hs hq => ?_⟩
  · rw [exec_running r, (advance_eq_self_iff s _).2]
    simp [State.consumeEnabled, State.emitEnabled, State.tailEnabled, State.completeEnabled, hst, ha]
  · have hne : s.block.idx ≠ s.block.curLen := BitVec.ne_of_lt hlt
    rw [exec_running r, (advance_eq_self_iff s _).2]
    simp [State.consumeEnabled, State.emitEnabled, State.tailEnabled, State.completeEnabled, hst, hq, hne]
  · exact blockTurn_run_cmdQ hp (step_quiet hs ▸ h)
  · rw [step_quiet hs, blockTurn_idle_holds hi hp hq]

end Sys2Proof.Machine
end

section
/-! O45. An enabled event stays enabled, and does the same, when the host has supplied more. -/

namespace Sys2Proof.Machine

/-- The host has offered the words `ws` and pushed the bytes `ys` besides (R53). -/
def State.supplyMore (s : State) (ws : List Word64) (ys : List Byte) : State :=
  { s with host := { s.host with cmdQ := s.host.cmdQ ++ ws, inQ := s.host.inQ ++ ys } }

/-- Offering a word and pushing a byte are the two ways to supply more. -/
theorem hostAct_eq_supplyMore {a : HostAction} (ha : (∃ w, a = .offer w) ∨ ∃ x, a = .push x) :
    ∃ ws ys, ∀ s : State, s.hostAct a = s.supplyMore ws ys := by
  obtain ⟨w, rfl⟩ | ⟨x, rfl⟩ := ha
  · exact ⟨[w], [], fun s => by simp [State.hostAct, State.supplyMore]⟩
  · exact ⟨[], [x], fun s => by simp [State.hostAct, State.supplyMore]⟩

/-- The command in progress is in progress still. -/
theorem State.Running.supplyMore {s : State} {i : Instr} (r : s.Running i) (ws : List Word64) (ys : List Byte) :
    (s.supplyMore ws ys).Running i :=
  ⟨r.run, r.op, r.len⟩

/-- An event of a command that changes the state does the same after more is supplied: its premise of R69 to R73 looks
no further than the head of the input queue. -/
theorem CommandStep.exec_supplyMore {i : Instr} {s t : State} (e : CommandStep i s t) (hne : t ≠ s)
    (ws : List Word64) (ys : List Byte) : exec i (s.supplyMore ws ys) = .next (t.supplyMore ws ys) := by
  cases e with
  | wait => exact absurd rfl hne
  | accept hp =>
    rw [exec_eq, commandEvent_idle _ _ (by exact hp)]
    rfl
  | emit r =>
    have r' : (s.supplyMore ws ys).EmitReady i _ _ := ⟨r.toRunning.supplyMore ws ys, r.stage, r.accepts⟩
    rw [exec_running r'.toRunning, advance_emit _ r']
    rfl
  | @consume x xs r =>
    have hin : (s.supplyMore ws ys).host.inQ = x :: (xs ++ ys) := congrArg (· ++ ys) r.input
    have r' : (s.supplyMore ws ys).ConsumeReady i _ _ := ⟨r.toRunning.supplyMore ws ys, r.stage, r.idx, hin⟩
    rw [exec_running r'.toRunning, advance_consume _ r']
    rfl
  | tail r =>
    have r' : (s.supplyMore ws ys).TailReady i := ⟨r.toRunning.supplyMore ws ys, r.idx, r.stage, r.tailDone⟩
    rw [exec_running r'.toRunning, advance_tail _ r']
    rfl
  | complete r =>
    have r' : (s.supplyMore ws ys).CompleteReady i := ⟨r.toRunning.supplyMore ws ys, r.idx, r.stage, r.tailDone⟩
    rw [exec_running r'.toRunning, advance_complete _ r']
    rfl

/-- ACCEPT, of a legal word or an illegal one, does the same after more is supplied. -/
theorem acceptWord_supplyMore {s t : State} {w : Word64} (hp : s.block.phase = .idle)
    (h : s.acceptWord w = .next t) (ws : List Word64) (ys : List Byte) :
    (s.supplyMore ws ys).acceptWord w = .next (t.supplyMore ws ys) := by
  unfold State.acceptWord at h ⊢
  cases hd : decodeCmd w with
  | ok i =>
    simp only [hd] at h ⊢
    rw [exec_eq, commandEvent_idle _ _ hp, Host.Outcome.next.injEq] at h
    rw [exec_eq, commandEvent_idle _ _ (by exact hp), ← h]
    rfl
  | error e =>
    simp only [hd, Host.Outcome.next.injEq] at h ⊢
    rw [← h]
    rfl

/-- Settles O45. -/
theorem supplyCommutesWithBlockEvent : Obligations.SupplyCommutesWithBlockEvent := by
  intro s t a hi ha h hne
  obtain ⟨ws, ys, hsupply⟩ := hostAct_eq_supplyMore ha
  rw [hsupply, hsupply]
  cases hp : s.block.phase with
  | idle =>
    cases hq : s.host.cmdQ with
    | nil =>
      rw [blockTurn_idle_holds hi hp hq] at h
      exact absurd (Host.Outcome.next.inj h).symm hne
    | cons w rest =>
      have hq' : (s.supplyMore ws ys).host.cmdQ = w :: (rest ++ ws) := congrArg (· ++ ws) hq
      rw [blockTurn_idle_word hp hq] at h
      rw [blockTurn_idle_word (by exact hp) hq']
      exact acceptWord_supplyMore (by exact hp) h ws ys
  | run =>
    obtain ⟨i, hc⟩ := hi.current
    rw [blockTurn_run hp hc] at h
    rw [blockTurn_run (by exact hp) (by exact hc)]
    exact (exec_commandStep h).exec_supplyMore hne ws ys

end Sys2Proof.Machine
end

section
/-! The block's own part of a command: CONSUME and TAIL as functions of the block alone, run over a whole input with no
EMIT in between, give what `Tx` gives (R68, R76). -/

namespace Sys2Proof.Machine

/-- CONSUME on the block (R70). -/
def Block.consumeByte (i : Instr) (b : Block) (x : Byte) : Block :=
  { (handlersOf i).onByte x b with idx := ((handlersOf i).onByte x b).idx + 1 }

/-- TAIL on the block (R72). -/
def Block.runTail (i : Instr) (b : Block) : Block := { (handlersOf i).onTail b with tailDone := true }

/-- The block after ACCEPT of `i` and CONSUME of `input`, if it has emitted nothing. -/
def Block.fed (i : Instr) (input : List Byte) : Block :=
  input.foldl (Block.consumeByte i) (Block.reset.acceptLegal (handlersOf i) i)

theorem Block.fed_append_singleton (i : Instr) (input : List Byte) (x : Byte) :
    Block.fed i (input ++ [x]) = (Block.fed i input).consumeByte i x := by
  simp [Block.fed]

/-- IDX after one byte and then `n` more (R25). -/
theorem idx_succ_add (k : Word32) (n : Nat) : k + 1#32 + BitVec.ofNat 32 n = k + BitVec.ofNat 32 (n + 1) := by
  rw [BitVec.add_assoc, Nat.add_comm, BitVec.ofNat_add]

/-- Feeding bytes counts them in IDX and leaves CUR_LEN alone (R25). -/
theorem foldl_consumeByte_frame (i : Instr) (input : List Byte) (b : Block) :
    let c := input.foldl (Block.consumeByte i) b
    c.idx = b.idx + BitVec.ofNat 32 input.length ∧ c.curLen = b.curLen := by
  induction input generalizing b with
  | nil => simp
  | cons x xs ih =>
    obtain ⟨-, flen, fidx, -⟩ := onByte_frame i x b
    obtain ⟨hidx, hlen⟩ := ih (b.consumeByte i x)
    refine ⟨?_, hlen.trans flen⟩
    rw [List.foldl_cons, hidx, List.length_cons, ← idx_succ_add]
    simp only [Block.consumeByte, fidx]
    rfl

theorem Block.fed_idx (i : Instr) (input : List Byte) : (Block.fed i input).idx = BitVec.ofNat 32 input.length := by
  rw [Block.fed, (foldl_consumeByte_frame i input _).1, Block.acceptLegal_eq]
  exact BitVec.zero_add _

theorem Block.fed_curLen (i : Instr) (input : List Byte) : (Block.fed i input).curLen = i.lenField := by
  rw [Block.fed, (foldl_consumeByte_frame i input _).2, Block.acceptLegal_eq]

/-! ## The four commands that treat every byte alike -/

theorem csumValue_cons (x : Byte) (s : List Byte) : csumValue (x :: s) = x.setWidth 16 + csumValue s := by
  rw [← List.singleton_append, csumValue_append]
  simp [csumValue, BitVec.ofNat_toNat]

/-- Adding a byte to ACC and then a sequence's sum (R91, R92). -/
theorem addByte_add_csumValue (acc : Word16) (x : Byte) (s : List Byte) :
    addByte acc x + csumValue s = acc + csumValue (x :: s) := by
  rw [csumValue_cons, addByte, BitVec.add_assoc]

/-- ESCAPE stages the escape of its input (R82, R88). -/
theorem foldl_consumeByte_escape (n : Nat) (s : List Byte) (b : Block) :
    s.foldl (Block.consumeByte (.escape n)) b =
      { b with stage := b.stage ++ escape s, idx := b.idx + BitVec.ofNat 32 s.length } := by
  induction s generalizing b with
  | nil => simp [escape]
  | cons x xs ih =>
    rw [List.foldl_cons, ih]
    simp [Block.consumeByte, handlersOf, escapeHandlers, Block.stageBytes, escape, idx_succ_add]

/-- UNESCAPE runs the fold of R84 and stages its outputs (R89). -/
theorem foldl_consumeByte_unescape (n : Nat) (s : List Byte) (b : Block) :
    s.foldl (Block.consumeByte (.unescape n)) b =
      { b with
        uState := (unescFold b.uState b.escErr s).1
        escErr := (unescFold b.uState b.escErr s).2.1
        stage := b.stage ++ (unescFold b.uState b.escErr s).2.2
        idx := b.idx + BitVec.ofNat 32 s.length } := by
  induction s generalizing b with
  | nil => simp [unescFold]
  | cons x xs ih =>
    rw [List.foldl_cons, ih]
    simp [Block.consumeByte, handlersOf, unescapeHandlers, unescapeOnByte, Block.stageBytes, unescFold, idx_succ_add]

/-- CHECKSUM adds its input to ACC (R92, R95). -/
theorem foldl_consumeByte_checksum (n : Nat) (s : List Byte) (b : Block) :
    s.foldl (Block.consumeByte (.checksum n)) b =
      { b with acc := b.acc + csumValue s, idx := b.idx + BitVec.ofNat 32 s.length } := by
  induction s generalizing b with
  | nil => simp [csumValue_nil]
  | cons x xs ih =>
    rw [List.foldl_cons, ih]
    simp [Block.consumeByte, handlersOf, checksumHandlers, Block.accAdd, addByte_add_csumValue, idx_succ_add]

/-- ENCODE_FRAME adds its input to ACC and stages its escape (R98). -/
theorem foldl_consumeByte_encodeFrame (n : Nat) (s : List Byte) (b : Block) :
    s.foldl (Block.consumeByte (.encodeFrame n)) b =
      { b with
        acc := b.acc + csumValue s
        stage := b.stage ++ escape s
        idx := b.idx + BitVec.ofNat 32 s.length } := by
  induction s generalizing b with
  | nil => simp [escape, csumValue_nil]
  | cons x xs ih =>
    rw [List.foldl_cons, ih]
    simp [Block.consumeByte, handlersOf, encodeFrameHandlers, Block.accAdd, Block.stageBytes, escape,
      addByte_add_csumValue, idx_succ_add]

theorem escape_append (s t : List Byte) : escape (s ++ t) = escape s ++ escape t := by
  induction s with
  | nil => rfl
  | cons x xs ih => simp [escape, ih]

/-! ## The delay line -/

/-- Any bytes through the delay line: it keeps the last two of what it held and they make, and the others have been
added to ACC and staged in order (R102). -/
theorem foldl_dlPush (u : List Byte) {b : Block} (hd : b.dl.length ≤ 2) :
    u.foldl Block.dlPush b =
      { b with
        dl := (b.dl ++ u).drop ((b.dl ++ u).length - 2)
        acc := b.acc + csumValue (dropLast2 (b.dl ++ u))
        stage := b.stage ++ dropLast2 (b.dl ++ u) } := by
  induction u generalizing b with
  | nil => simp [dropLast2, Nat.sub_eq_zero_of_le hd, csumValue_nil]
  | cons x xs ih =>
    rcases Nat.lt_or_ge b.dl.length 2 with h | h
    · rw [List.foldl_cons, dlPush_short x h, ih (by simpa using h)]
      simp
    · obtain ⟨old, young, e⟩ := List.length_eq_two.1 (by omega : b.dl.length = 2)
      rw [List.foldl_cons, dlPush_full x e, ih (le_refl 2)]
      simp [e, dropLast2, addByte_add_csumValue]

/-- The block with U_STATE, ESC_ERR and IDX replaced: what an interior byte sets beside the delay line (R101). -/
def Block.setUnescape (b : Block) (st : UState) (err : Bool) (k : Word32) : Block :=
  { b with uState := st, escErr := err, idx := k }

/-- `dlPush` does not see U_STATE, ESC_ERR and IDX (R102). -/
theorem dlPush_setUnescape (b : Block) (u : Byte) (st : UState) (err : Bool) (k : Word32) :
    (b.setUnescape st err k).dlPush u = (b.dlPush u).setUnescape st err k := by
  unfold Block.dlPush Block.setUnescape
  dsimp only
  split <;> rfl

theorem foldl_dlPush_setUnescape (b : Block) (u : List Byte) (st : UState) (err : Bool) (k : Word32) :
    u.foldl Block.dlPush (b.setUnescape st err k) = (u.foldl Block.dlPush b).setUnescape st err k := by
  induction u generalizing b with
  | nil => rfl
  | cons x xs ih => rw [List.foldl_cons, List.foldl_cons, dlPush_setUnescape, ih]

theorem foldl_dlPush_curLen (b : Block) (u : List Byte) : (u.foldl Block.dlPush b).curLen = b.curLen := by
  induction u generalizing b with
  | nil => rfl
  | cons x xs ih => rw [List.foldl_cons, ih, dlPush_frame]

/-! ## DECODE_FRAME, byte by position -/

theorem consumeByte_first (n : Nat) (x : Byte) {b : Block} (h : b.idx = 0) :
    b.consumeByte (.decodeFrame n) x = { b with sofBad := decide (x ≠ Config.sof), idx := 1 } := by
  simp [Block.consumeByte, handlersOf, decodeFrameHandlers, decodeOnByte, framePos, h]

theorem consumeByte_last (n : Nat) (x : Byte) {b : Block} (h0 : b.idx ≠ 0)
    (h : b.idx.toNat + 1 = b.curLen.toNat) :
    b.consumeByte (.decodeFrame n) x = { b with eofBad := decide (x ≠ Config.eof), idx := b.idx + 1 } := by
  have hl : b.idx = b.curLen - 1 := by bv_omega
  simp only [Block.consumeByte, handlersOf, decodeFrameHandlers, decodeOnByte, framePos, if_neg h0, if_pos hl]

/-- An interior byte runs the unescape step, and its output, if any, enters the delay line (R101, R102). -/
theorem consumeByte_interior (n : Nat) (x : Byte) {b : Block} (h0 : b.idx ≠ 0)
    (h : b.idx.toNat + 1 < b.curLen.toNat) :
    b.consumeByte (.decodeFrame n) x =
      ((unescStep b.uState b.escErr x).out.toList.foldl Block.dlPush b).setUnescape
        (unescStep b.uState b.escErr x).uState (unescStep b.uState b.escErr x).escErr (b.idx + 1) := by
  have hl : b.idx ≠ b.curLen - 1 := by bv_omega
  simp only [Block.consumeByte, handlersOf, decodeFrameHandlers, decodeOnByte, framePos, if_neg h0, if_neg hl]
  cases (unescStep b.uState b.escErr x).out with
  | none => rfl
  | some u =>
    have hpush := dlPush_setUnescape b u (unescStep b.uState b.escErr x).uState
      (unescStep b.uState b.escErr x).escErr b.idx
    simp only [Block.setUnescape] at hpush
    simp [hpush, Block.setUnescape]

/-- Interior bytes run the fold of R84, and its outputs enter the delay line in order (R101, R102). -/
theorem foldl_consumeByte_interior (n : Nat) (s : List Byte) {b : Block} (h0 : b.idx ≠ 0)
    (h : b.idx.toNat + s.length < b.curLen.toNat) :
    s.foldl (Block.consumeByte (.decodeFrame n)) b =
      ((unescFold b.uState b.escErr s).2.2.foldl Block.dlPush b).setUnescape (unescFold b.uState b.escErr s).1
        (unescFold b.uState b.escErr s).2.1 (b.idx + BitVec.ofNat 32 s.length) := by
  induction s generalizing b with
  | nil => simp [unescFold, Block.setUnescape]
  | cons x xs ih =>
    rw [List.length_cons] at h
    have hlt : b.idx.toNat + 1 < b.curLen.toNat := by omega
    have hidx : (b.idx + 1).toNat = b.idx.toNat + 1 := by bv_omega
    rw [List.foldl_cons, consumeByte_interior n x h0 hlt, ih]
    · rw [foldl_dlPush_setUnescape]
      simp [Block.setUnescape, unescFold, idx_succ_add]
    · simp only [Block.setUnescape]
      bv_omega
    · simp only [Block.setUnescape, foldl_dlPush_curLen, hidx]
      omega

/-- The bytes of a frame after its first one: the interior is unescaped, its last two bytes end in the delay line, the
others are added to ACC and staged, and the end delimiter is checked (R100 to R102). -/
theorem foldl_consumeByte_rest (n : Nat) (m : List Byte) (y : Byte) {b : Block} (h0 : b.idx ≠ 0) (hd : b.dl = [])
    (h : b.idx.toNat + m.length + 1 = b.curLen.toNat) :
    (m ++ [y]).foldl (Block.consumeByte (.decodeFrame n)) b =
      { b with
        eofBad := decide (y ≠ Config.eof)
        uState := (unescFold b.uState b.escErr m).1
        escErr := (unescFold b.uState b.escErr m).2.1
        dl := (unescFold b.uState b.escErr m).2.2.drop ((unescFold b.uState b.escErr m).2.2.length - 2)
        acc := b.acc + csumValue (dropLast2 (unescFold b.uState b.escErr m).2.2)
        stage := b.stage ++ dropLast2 (unescFold b.uState b.escErr m).2.2
        idx := b.idx + BitVec.ofNat 32 m.length + 1 } := by
  have hidx : (b.idx + BitVec.ofNat 32 m.length).toNat = b.idx.toNat + m.length := by
    have := b.curLen.isLt
    rw [BitVec.toNat_add, BitVec.toNat_ofNat]
    omega
  rw [List.foldl_append, foldl_consumeByte_interior n m h0 (by omega),
    foldl_dlPush _ (by rw [hd]; exact Nat.zero_le 2), hd, List.foldl_cons, List.foldl_nil, consumeByte_last]
  · rfl
  · simp only [Block.setUnescape]
    bv_omega
  · simp only [Block.setUnescape, hidx]
    exact h

/-- The block after a whole frame of two bytes or more. -/
theorem fed_decodeFrame (n : Nat) (x y : Byte) (m : List Byte) (hn : n < 2 ^ 32) (hlen : m.length + 2 = n) :
    Block.fed (.decodeFrame n) (x :: (m ++ [y])) =
      { Block.reset.acceptLegal decodeFrameHandlers (.decodeFrame n) with
        sofBad := decide (x ≠ Config.sof)
        eofBad := decide (y ≠ Config.eof)
        uState := (unescFold .normal false m).1
        escErr := (unescFold .normal false m).2.1
        dl := (unescFold .normal false m).2.2.drop ((unescFold .normal false m).2.2.length - 2)
        acc := 0 + csumValue (dropLast2 (unescFold .normal false m).2.2)
        stage := dropLast2 (unescFold .normal false m).2.2
        idx := 1 + BitVec.ofNat 32 m.length + 1 } := by
  have hcur : (BitVec.ofNat 32 n).toNat = n := Nat.mod_eq_of_lt hn
  rw [Block.fed, List.foldl_cons, consumeByte_first n x rfl, foldl_consumeByte_rest]
  · rfl
  · simp
  · rfl
  · change 1 + m.length + 1 = (BitVec.ofNat 32 n).toNat
    omega

/-! ## What a whole input yields -/

/-- The block, done with its input, holds what `Tx` answers: the bytes written and yet to write, CSUM, and the code its
verdict will be (R68, R76). -/
structure Block.Yields (i : Instr) (b : Block) (r : TxResult) : Prop where
  out : b.stage = r.out
  csum : b.acc = r.csum
  code : (handlersOf i).verdict b = r.code

theorem fed_escape_yields (n : Nat) (s : List Byte) :
    ((Block.fed (.escape n) s).runTail (.escape n)).Yields (.escape n) (txEscape s) := by
  rw [Block.fed, foldl_consumeByte_escape, Block.acceptLegal_eq]
  exact ⟨rfl, rfl, rfl⟩

theorem fed_unescape_yields (n : Nat) (s : List Byte) :
    ((Block.fed (.unescape n) s).runTail (.unescape n)).Yields (.unescape n) (txUnescape s) := by
  rw [Block.fed, foldl_consumeByte_unescape, Block.acceptLegal_eq]
  exact ⟨rfl, rfl, rfl⟩

theorem fed_checksum_yields (n : Nat) (s : List Byte) :
    ((Block.fed (.checksum n) s).runTail (.checksum n)).Yields (.checksum n) (txChecksum s) := by
  rw [Block.fed, foldl_consumeByte_checksum, Block.acceptLegal_eq]
  simp only [Block.runTail, handlersOf, checksumHandlers, txChecksum, checksum]
  exact ⟨by simp, by simp, rfl⟩

theorem fed_encodeFrame_yields (n : Nat) (s : List Byte) :
    ((Block.fed (.encodeFrame n) s).runTail (.encodeFrame n)).Yields (.encodeFrame n) (txEncodeFrame s) := by
  rw [Block.fed, foldl_consumeByte_encodeFrame, Block.acceptLegal_eq]
  refine ⟨?_, BitVec.zero_add _, rfl⟩
  simp [Block.runTail, handlersOf, encodeFrameHandlers, Block.stageBytes, txEncodeFrame, encodeFrame, escape_append,
    checksum, byteForm, escape, Instr.len]

/-- R103 asks for bad escaping as the negation of R85's end check. -/
theorem escErr_or_escaped (st : UState) (err : Bool) :
    (err || decide (st = .escaped)) = !unescOk st err := by
  cases st <;> cases err <;> rfl

/-- The delay line holds the checksum of the bytes before it exactly when the frame does (R99, R103). -/
theorem decodeVerdict_checksum {u : List Byte} (h : 2 ≤ u.length) (v : Word16) :
    ((u.drop (u.length - 2))[0]? ≠ some (lowByte v) ∨ (u.drop (u.length - 2))[1]? ≠ some (highByte v))
      ↔ byteForm v ≠ last2 u := by
  obtain ⟨a, b, e⟩ := List.length_eq_two.1 (by simp; omega : (u.drop (u.length - 2)).length = 2)
  simp [last2, h, e, byteForm, eq_comm, imp_iff_not_or]

/-- After a whole frame the verdict of R103 is the code of R99's result. -/
theorem decodeVerdict_frame {b : Block} {x y : Byte} {m : List Byte} (hlen : b.curLen.toNat = m.length + 2)
    (hsof : b.sofBad = decide (x ≠ Config.sof)) (heof : b.eofBad = decide (y ≠ Config.eof))
    (hu : unescOk b.uState b.escErr = (unescapeRun m).2)
    (hdl : b.dl = (unescapeRun m).1.drop ((unescapeRun m).1.length - 2))
    (hacc : b.acc = csumValue (dropLast2 (unescapeRun m).1)) :
    decodeVerdict b = decodeCode (decodeFrame (x :: (m ++ [y]))) := by
  have hlen' : (x :: (m ++ [y])).length = b.curLen.toNat := by simp [hlen]
  have hdelim : ((x :: (m ++ [y])).head? ≠ some Config.sof ∨ (x :: (m ++ [y])).getLast? ≠ some Config.eof)
      ↔ (b.sofBad || b.eofBad) = true := by
    simp [hsof, heof, List.getLast?_cons]
  have hdlen : b.dl.length < 2 ↔ (unescapeRun m).1.length < 2 := by
    rw [hdl, List.length_drop]
    omega
  unfold decodeVerdict decodeFrame
  rw [hlen', escErr_or_escaped, hu, frameInterior_delimited]
  simp only [hdelim, hdlen]
  by_cases h4 : b.curLen.toNat < Config.minFrame
  · rw [if_pos h4, if_pos h4]
    rfl
  by_cases hd : (b.sofBad || b.eofBad) = true
  · rw [if_neg h4, if_neg h4, if_pos hd, if_pos hd]
    rfl
  rw [if_neg h4, if_neg h4, if_neg hd, if_neg hd]
  cases (unescapeRun m).2 with
  | false => rfl
  | true =>
    by_cases h2 : (unescapeRun m).1.length < 2
    · simp only [h2, if_true]
      rfl
    · have hc := decodeVerdict_checksum (Nat.le_of_not_lt h2) b.acc
      rw [← hdl] at hc
      simp only [hc, checksum, ← hacc, h2]
      by_cases h3 : byteForm b.acc = last2 (unescapeRun m).1
      · simp only [h3, ne_eq, not_true_eq_false, if_false]
        rfl
      · simp only [h3, ne_eq, not_false_eq_true, if_true]
        rfl

/-- A frame of fewer than two bytes has no interior; a longer one is its first byte, its interior and its last byte. -/
theorem fed_decodeFrame_yields (n : Nat) (s : List Byte) (hn : n < 2 ^ 32) (hs : s.length = n) :
    ((Block.fed (.decodeFrame n) s).runTail (.decodeFrame n)).Yields (.decodeFrame n) (txDecodeFrame s) := by
  match s with
  | [] | [_] =>
    subst hs
    exact ⟨rfl, rfl, rfl⟩
  | x :: z :: zs =>
    obtain ⟨m, y, e⟩ := (z :: zs).eq_nil_or_concat'.resolve_left (List.cons_ne_nil z zs)
    have hlen : m.length + 2 = n := by simpa [e] using hs
    have hi : frameInterior (x :: (m ++ [y])) = m := frameInterior_delimited m x y
    rw [e, fed_decodeFrame n x y m hn hlen]
    have hout : decodeEmitted (x :: (m ++ [y])) = dropLast2 (unescFold .normal false m).2.2 := by
      rw [decodeEmitted, hi, unescapeRun]
    refine ⟨hout.symm, ?_, ?_⟩
    · rw [txDecodeFrame, hout]
      exact BitVec.zero_add _
    · have hcur : (BitVec.ofNat 32 n).toNat = m.length + 2 := hlen ▸ Nat.mod_eq_of_lt (hlen ▸ hn)
      exact decodeVerdict_frame hcur rfl rfl rfl rfl (BitVec.zero_add _)

/-- The commands on the block alone agree with `Tx` on LEN bytes of input. -/
theorem fed_yields {i : Instr} {s : List Byte} (hw : i.wellFormed = true) (hs : s.length = i.len) :
    ((Block.fed i s).runTail i).Yields i (tx i s) := by
  cases i with
  | escape n => exact fed_escape_yields n s
  | unescape n => exact fed_unescape_yields n s
  | checksum n => exact fed_checksum_yields n s
  | encodeFrame n => exact fed_encodeFrame_yields n s
  | decodeFrame n => exact fed_decodeFrame_yields n s (of_decide_eq_true hw) hs

end Sys2Proof.Machine
end

section
/-! O47. A command in progress among the host's turns: what is written, and what is still in STAGE, is what the block
would hold had it emitted nothing (`Block.fed`), and the host's own turns change none of it. -/

namespace Sys2Proof.Machine

/-! ## A step while a command runs -/

/-- From `s` to `u` only the host has moved, leaving reset and the removal of input alone: the block, the bytes written
and the input still to come are the same. -/
structure State.HostMoves (s u : State) : Prop where
  block : u.block = s.block
  out : u.host.outStream = s.host.outStream
  input : u.inputToCome = s.inputToCome
  script : (∀ x ∈ s.host.script, x.keepsCommand = true) → ∀ x ∈ u.host.script, x.keepsCommand = true

/-- A turn used up that pushes nothing. -/
theorem State.HostMoves.withScript {s : State} {rest : List HostAction}
    (h : s.host.script = rest ∨ ∃ a, a.pushed = [] ∧ s.host.script = a :: rest) : s.HostMoves (s.withScript rest) := by
  obtain h | ⟨a, ha, h⟩ := h
  · exact ⟨rfl, rfl, by simp [State.inputToCome, h], fun hk => h ▸ hk⟩
  · exact ⟨rfl, rfl, by simp [State.inputToCome, h, ha], fun hk x hx => hk x (h ▸ List.mem_cons_of_mem a hx)⟩

/-- An action of the host that keeps the command pushes what it was to push, and touches neither block nor output. -/
theorem State.HostMoves.hostAct {s : State} {a : HostAction} {rest : List HostAction} (h : s.host.script = a :: rest)
    (hk : a.keepsCommand = true) : s.HostMoves ((s.withScript rest).hostAct a) := by
  have hscript : ∀ b, ((s.withScript rest).hostAct b).host.script = rest := fun b => by cases b <;> rfl
  refine ⟨State.hostAct_block _ (by rintro rfl; cases hk), State.hostAct_outStream _ a, ?_, ?_⟩
  · cases a with
    | assertReset | discardInput n => cases hk
    | _ => simp [State.inputToCome, State.hostAct, h, HostAction.pushed]
  · rw [hscript, h]
    exact fun hk x hx => hk x (List.mem_cons_of_mem a hx)

/-- A step while a command runs is a turn of the host, if any, and then an event of that command or a wait. -/
theorem step_running {s t : State} {i : Instr} (hw : i.wellFormed = true) (r : s.Running i)
    (hk : ∀ x ∈ s.host.script, x.keepsCommand = true) (h : step s = .next t) :
    ∃ u, s.HostMoves u ∧ CommandStep i u t := by
  obtain ⟨rest, hs, h⟩ | ⟨rest, hs, rfl⟩ | ⟨a, rest, hs, rfl⟩ := step_cases h
  · refine ⟨s.withScript rest, .withScript (hs.imp_right fun h => ⟨_, rfl, h⟩), ?_⟩
    rw [blockTurn_run (s := s.withScript rest) r.run (r.current hw)] at h
    exact exec_commandStep h
  · exact ⟨_, .withScript (.inr ⟨_, rfl, hs⟩), .wait⟩
  · exact ⟨_, .hostAct hs (hk a (hs ▸ List.mem_cons_self)), .wait⟩

/-! ## The block with its output taken back -/

/-- The block as if the bytes `w` it has written were still at the front of STAGE and not counted. -/
def Block.unwrite (b : Block) (w : List Byte) : Block := { b with stage := w ++ b.stage, outcnt := 0 }

/-- No handler looks at STAGE or OUTCNT: CONSUME is the same before the output is written (R70, R74). -/
theorem consumeByte_unwrite (i : Instr) (b : Block) (w : List Byte) (x : Byte) :
    (b.unwrite w).consumeByte i x = (b.consumeByte i x).unwrite w := by
  cases i with
  | checksum n => rfl
  | decodeFrame n =>
    simp only [Block.consumeByte, handlersOf, decodeFrameHandlers, decodeOnByte, Block.unwrite]
    split
    · rfl
    · rfl
    · cases (unescStep b.uState b.escErr x).out with
      | none => rfl
      | some u =>
        simp only [Block.dlPush]
        split <;> simp [Block.accAdd, Block.stageBytes]
  | _ =>
    simp [Block.consumeByte, handlersOf, escapeHandlers, unescapeHandlers, unescapeOnByte, encodeFrameHandlers,
      Block.unwrite, Block.stageBytes, Block.accAdd]

/-- TAIL changes STAGE and TAIL_DONE alone (R72). -/
theorem runTail_frame (i : Instr) (b : Block) :
    b.runTail i = { b with stage := ((handlersOf i).onTail b).stage, tailDone := true } := by
  rw [Block.runTail, onTail_frame]

/-- TAIL is the same before the output is written (R72). -/
theorem runTail_unwrite (i : Instr) (b : Block) (w : List Byte) :
    (b.unwrite w).runTail i = (b.runTail i).unwrite w := by
  cases i with
  | checksum n => simp [Block.runTail, handlersOf, checksumHandlers, Block.unwrite, Block.stageBytes]
  | encodeFrame n => simp [Block.runTail, handlersOf, encodeFrameHandlers, Block.unwrite, Block.stageBytes]
  | _ => rfl

/-- The verdict does not depend on the output (R74). -/
theorem verdict_unwrite (i : Instr) (b : Block) (w : List Byte) :
    (handlersOf i).verdict (b.unwrite w) = (handlersOf i).verdict b := by
  cases i <;> rfl

/-! ## Progress of a command -/

/-- The block that has consumed `input` of command `i`, before or after TAIL, if it has emitted nothing. -/
def Block.target (i : Instr) (input : List Byte) (tailDone : Bool) : Block :=
  if tailDone then (Block.fed i input).runTail i else Block.fed i input

@[simp] theorem Block.target_false (i : Instr) (input : List Byte) : Block.target i input false = Block.fed i input := rfl

@[simp] theorem Block.target_true (i : Instr) (input : List Byte) :
    Block.target i input true = (Block.fed i input).runTail i := rfl

/-- Command `i`, accepted in `s`, is in progress in `u`: it has consumed `input` and written `written`. -/
structure State.Progress (i : Instr) (s u : State) (input written : List Byte) : Prop extends State.Running u i where
  inv : u.block.Inv
  script : ∀ x ∈ u.host.script, x.keepsCommand = true
  fits : input.length ≤ i.len
  consumed : s.inputToCome = input ++ u.inputToCome
  wrote : u.host.outStream = s.host.outStream ++ written
  counted : u.block.outcnt = BitVec.ofNat 64 written.length
  target : u.block.unwrite written = Block.target i input u.block.tailDone

/-- Command `i`, accepted in `s`, has completed in `t` with the results of `Tx` (R76). -/
def State.CompletesAs (i : Instr) (s t : State) : Prop :=
  ∃ input, input.length = i.len
    ∧ s.inputToCome = input ++ t.inputToCome
    ∧ t.host.outStream = s.host.outStream ++ (tx i input).out
    ∧ t.block.cmpl = true
    ∧ t.block.code = (tx i input).code.value
    ∧ t.block.acc = (tx i input).csum
    ∧ t.block.outcnt = BitVec.ofNat 64 (tx i input).out.length

/-- ACCEPT starts the command with nothing consumed and nothing written (R69). -/
theorem State.Progress.accept (s : State) (i : Instr) (hk : ∀ x ∈ s.host.script, x.keepsCommand = true) :
    State.Progress i s { s with block := s.block.acceptLegal (handlersOf i) i } [] [] where
  run := by rw [Block.acceptLegal_eq]
  op := by rw [Block.acceptLegal_eq]
  len := by rw [Block.acceptLegal_eq]
  inv := Block.Inv.acceptLegal s.block i
  script := hk
  fits := Nat.zero_le _
  consumed := rfl
  wrote := (List.append_nil _).symm
  counted := by rw [Block.acceptLegal_eq]; rfl
  target := by simp only [Block.acceptLegal_eq, Block.target, Block.fed]; rfl

section
variable {i : Instr} {s u : State} {input written : List Byte} (p : State.Progress i s u input written)
include p

/-- A turn of the host changes nothing of a command's progress. -/
theorem State.Progress.hostMoves {v : State} (m : u.HostMoves v) : State.Progress i s v input written where
  run := m.block ▸ p.run
  op := m.block ▸ p.op
  len := m.block ▸ p.len
  inv := m.block ▸ p.inv
  script := m.script p.script
  fits := p.fits
  consumed := m.input ▸ p.consumed
  wrote := m.out ▸ p.wrote
  counted := m.block ▸ p.counted
  target := m.block ▸ p.target

/-- IDX counts the input consumed. -/
theorem State.Progress.idx_toNat (hw : i.wellFormed = true) : u.block.idx.toNat = input.length := by
  have h : u.block.idx = (Block.target i input u.block.tailDone).idx := congrArg (·.idx) p.target
  have hlen : i.len < Config.lenBound := of_decide_eq_true hw
  have hfits := p.fits
  have hfed : (Block.target i input u.block.tailDone).idx = (Block.fed i input).idx := by
    cases u.block.tailDone with
    | false => rfl
    | true => rw [Block.target_true, runTail_frame]
  rw [h, hfed, Block.fed_idx, BitVec.toNat_ofNat]
  simp only [Config.lenBound_eq] at hlen
  omega

/-- EMIT moves a byte from STAGE to what is written (R71). -/
theorem State.Progress.emit {x : Byte} {xs : List Byte} (r : u.EmitReady i x xs) :
    State.Progress i s
      { block := { u.block with stage := xs, outcnt := u.block.outcnt + 1 }, host := u.host.outWrite x }
      input (written ++ [x]) :=
  { p with
    inv := p.inv.emit r.stage
    wrote := by simp [p.wrote]
    counted := by simp [p.counted, BitVec.ofNat_add]
    target := by
      rw [← p.target]
      simp [Block.unwrite, r.stage] }

/-- CONSUME feeds the next byte of the input to the block (R70). -/
theorem State.Progress.consume (hw : i.wellFormed = true) {x : Byte} {xs : List Byte} (r : u.ConsumeReady i x xs) :
    State.Progress i s { block := u.block.consumeByte i x, host := { u.host with inQ := xs } }
      (input ++ [x]) written := by
  obtain ⟨fop, flen, -, fphase, -, -, ftail, fout⟩ := onByte_frame i x u.block
  have ht : u.block.tailDone = false := by
    by_contra h
    have := r.idx
    rw [p.inv.tail_idx (by simpa using h)] at this
    exact absurd this (BitVec.lt_irrefl _)
  have hlt : input.length < i.len := by
    have h : u.block.idx.toNat < u.block.curLen.toNat := r.idx
    rwa [p.idx_toNat hw, p.len, lenField_toNat hw] at h
  exact {
    run := fphase.trans p.run
    op := fop.trans p.op
    len := flen.trans p.len
    inv := p.inv.consume p.op x p.run r.stage r.idx
    script := p.script
    fits := by simpa using hlt
    consumed := by
      rw [p.consumed]
      simp [State.inputToCome, r.input]
    wrote := p.wrote
    counted := fout.trans p.counted
    target := by
      have h := p.target
      have ht' : (u.block.consumeByte i x).tailDone = false := ftail.trans ht
      rw [ht, Block.target_false] at h
      rw [ht', Block.target_false, ← consumeByte_unwrite, h, Block.fed_append_singleton] }

/-- TAIL runs once, on the whole input (R72). -/
theorem State.Progress.tail (r : u.TailReady i) :
    State.Progress i s { u with block := u.block.runTail i } input written := by
  have hinv : (u.block.runTail i).Inv := p.inv.tail i p.run r.stage r.idx
  have htarget : (u.block.runTail i).unwrite written = (Block.fed i input).runTail i := by
    rw [← runTail_unwrite, p.target, r.tailDone, Block.target_false]
  rw [runTail_frame] at hinv htarget ⊢
  exact { p with
    inv := hinv
    target := htarget }

/-- COMPLETE finds the whole input consumed and the whole output written, so its results are those of `Tx` (R73). -/
theorem State.Progress.complete (hw : i.wellFormed = true) (r : u.CompleteReady i) :
    State.CompletesAs i s
      { u with block := { u.block.report ((handlersOf i).verdict u.block) with phase := .idle } } := by
  have hlen : input.length = i.len := by
    rw [← p.idx_toNat hw, r.idx, p.len, lenField_toNat hw]
  have y := fed_yields hw hlen
  have h : u.block.unwrite written = (Block.fed i input).runTail i := by
    rw [p.target, r.tailDone, Block.target_true]
  rw [← h] at y
  have hout : written = (tx i input).out := by simpa [Block.unwrite, r.stage] using y.out
  refine ⟨input, hlen, p.consumed, hout ▸ p.wrote, rfl, ?_, y.csum, hout ▸ p.counted⟩
  rw [← y.code, verdict_unwrite]
  rfl

/-- A step of a command in progress goes on with it or completes it. -/
theorem State.Progress.step (hw : i.wellFormed = true) {v : State} (h : step u = .next v) :
    (∃ input' written', State.Progress i s v input' written') ∨ (v.block.phase = .idle ∧ State.CompletesAs i s v) := by
  obtain ⟨w, m, e⟩ := step_running hw p.toRunning p.script h
  have q := p.hostMoves m
  cases e with
  | wait => exact .inl ⟨_, _, q⟩
  | accept hp => simp [q.run] at hp
  | emit r => exact .inl ⟨_, _, q.emit r⟩
  | consume r => exact .inl ⟨_, _, q.consume hw r⟩
  | tail r => exact .inl ⟨_, _, q.tail r⟩
  | complete r => exact .inr ⟨rfl, q.complete hw r⟩

end

/-! ## Runs -/

/-- A run that answers a next state took a step that answered one. -/
theorem core_run_succ_inv {s t : State} {n : Nat} (h : Sys2Proof.core.run (n + 1) s = .next t) :
    ∃ u, step s = .next u ∧ Sys2Proof.core.run n u = .next t := by
  cases hs : step s with
  | next u => exact ⟨u, rfl, core_run_succ n hs ▸ h⟩
  | fault r =>
    have h' : Sys2Proof.core.step s = .fault r := hs
    simp [Host.Core.run, h'] at h
  | refused r =>
    have h' : Sys2Proof.core.step s = .refused r := hs
    simp [Host.Core.run, h'] at h

/-- A command in progress that reaches IDLE for the first time has completed with the results of `Tx`. -/
theorem State.Progress.run_completes {i : Instr} {s u t : State} {input written : List Byte} {n : Nat}
    (p : State.Progress i s u input written) (hw : i.wellFormed = true) (h : Sys2Proof.core.run n u = .next t)
    (ht : t.block.phase = .idle)
    (hrun : ∀ (k : Nat) (v : State), k < n → Sys2Proof.core.run k u = .next v → v.block.phase = .run) :
    State.CompletesAs i s t := by
  induction n generalizing u input written with
  | zero =>
    cases h
    simp [p.run] at ht
  | succ n ih =>
    obtain ⟨v, hstep, hv⟩ := core_run_succ_inv h
    have hrun' : ∀ (k : Nat) (x : State), k < n → Sys2Proof.core.run k v = .next x → x.block.phase = .run :=
      fun k x hk hx => hrun (k + 1) x (Nat.succ_lt_succ hk) ((core_run_succ k hstep).trans hx)
    obtain ⟨input', written', q⟩ | ⟨hidle, hc⟩ := p.step hw hstep
    · exact ih q hv hrun'
    · cases n with
      | zero =>
        cases hv
        exact hc
      | succ n => simp [hrun' 0 v (Nat.succ_pos n) rfl] at hidle

/-- Settles O47: ACCEPT starts the progress, every step keeps it, and COMPLETE ends it with the results of `Tx`. -/
theorem agreementUnderAnyHostTiming : Obligations.AgreementUnderAnyHostTiming := by
  intro s a t i n hw hp ha hk hn ht hrun
  rw [exec_eq, commandEvent_idle _ _ hp, Host.Outcome.next.injEq] at ha
  subst ha
  exact (State.Progress.accept s i hk).run_completes hw hn ht hrun

end Sys2Proof.Machine
end

section
/-! O1 to O4. The decoder by the fields of the command word, and the encoder's word by the same fields (R56, R60). -/

namespace Sys2Proof

/-! ## The fields of an encoded command -/

/-- The word of a command is `LEN * 2^32 + OP` (R56). -/
theorem encode_toNat (i : Instr) : (encode i).toNat = i.lenField.toNat * 2 ^ 32 + i.op.toNat :=
  wordOf_toNat i.lenField i.op

@[simp] theorem wordOp_encode (i : Instr) : wordOp (encode i) = i.op := by
  apply BitVec.eq_of_toNat_eq
  rw [wordOp_toNat, encode_toNat]
  omega

@[simp] theorem wordRsvd_encode (i : Instr) : wordRsvd (encode i) = 0 := by
  apply BitVec.eq_of_toNat_eq
  rw [wordRsvd_toNat, encode_toNat, show (0 : BitVec 29).toNat = 0 from rfl]
  omega

@[simp] theorem wordLen_encode (i : Instr) : wordLen (encode i) = i.lenField := by
  apply BitVec.eq_of_toNat_eq
  rw [wordLen_toNat, encode_toNat]
  omega

/-- A word with RSVD = 0 is `LEN * 2^32 + OP` of its own fields (R56). -/
theorem toNat_eq_of_wordRsvd {w : Word64} (h : wordRsvd w = 0) :
    w.toNat = (wordLen w).toNat * 2 ^ 32 + (wordOp w).toNat := by
  have hr : w.toNat / 8 % 2 ^ 29 = 0 := by rw [← wordRsvd_toNat, h]; rfl
  rw [wordLen_toNat, wordOp_toNat]
  omega

/-! ## The decoder -/

/-- A word is legal exactly when RSVD is 0 and OP selects a command (R60). -/
theorem decodeCmd_eq_ok_iff {w : Word64} {i : Instr} :
    decodeCmd w = .ok i ↔ wordRsvd w = 0 ∧ Instr.ofOp (wordOp w) (wordLen w).toNat = some i := by
  unfold decodeCmd
  split
  · next hr => cases Instr.ofOp (wordOp w) (wordLen w).toNat <;> simp [hr]
  · next hr => exact ⟨nofun, fun h => absurd h.1 hr⟩

/-- A word is illegal exactly when RSVD is not 0 or OP is reserved (R61). -/
theorem decodeCmd_error_iff {w : Word64} :
    (∃ e, decodeCmd w = .error e) ↔ wordRsvd w ≠ 0 ∨ 5 ≤ (wordOp w).toNat := by
  rw [← ofOp_eq_none (wordOp w) (wordLen w).toNat]
  unfold decodeCmd
  split
  · next hr => cases Instr.ofOp (wordOp w) (wordLen w).toNat <;> simp [hr]
  · next hr => exact ⟨fun _ => .inl hr, fun _ => ⟨_, rfl⟩⟩

/-- Settles O2: the fields of the encoded word are 0, OP and LEN, and those select the command. -/
theorem decodeOfEncodeIsIdentity : Obligations.DecodeOfEncodeIsIdentity := by
  intro i hw
  rw [decodeCmd_eq_ok_iff, wordRsvd_encode, wordOp_encode, wordLen_encode, lenField_toNat hw]
  exact ⟨rfl, Machine.ofOp_op i⟩

/-- Settles O3: a legal word and the encoding of its command have the same three fields. -/
theorem encodeOfDecodeIsIdentity : Obligations.EncodeOfDecodeIsIdentity := by
  intro w i h
  obtain ⟨hr, hi⟩ := decodeCmd_eq_ok_iff.1 h
  obtain ⟨hop, hlen⟩ := Machine.ofOp_some hi
  have hw : i.wellFormed = true := by
    rw [Instr.wellFormed, hlen]
    exact decide_eq_true (wordLen w).isLt
  refine ⟨hw, BitVec.eq_of_toNat_eq ?_⟩
  rw [encode_toNat, lenField_toNat hw, hop, hlen, toNat_eq_of_wordRsvd hr]

/-- Settles O1: the words are closed, so the decoder computes. -/
theorem writtenOutWordsDecode : Obligations.WrittenOutWordsDecode := by
  unfold Obligations.WrittenOutWordsDecode
  decide

/-- Settles O4: the three lines are the two ways to be illegal and the one way to be legal. -/
theorem decoderIsTotalByFields : Obligations.DecoderIsTotalByFields := by
  intro w
  refine ⟨fun hr => decodeCmd_error_iff.2 (.inl hr), fun _ ho => decodeCmd_error_iff.2 (.inr ho), fun hr ho => ?_⟩
  cases hi : Instr.ofOp (wordOp w) (wordLen w).toNat with
  | none => exact absurd ((ofOp_eq_none _ _).1 hi) (Nat.not_le.2 ho)
  | some i => exact ⟨i, decodeCmd_eq_ok_iff.2 ⟨hr, hi⟩, Machine.ofOp_some hi⟩

end Sys2Proof
end

section
/-! O7, O8, O60. A turn left to the block by a script, ACCEPT of an illegal word, and the pseudo-instruction. -/

namespace Sys2Proof.Machine

/-! ## The block does not see the host's script -/

theorem emit_withScript (s : State) (l : List HostAction) : (s.withScript l).emit = s.emit.withScript l := by
  cases hs : s.block.stage <;> simp [State.emit, State.withScript, HostSide.outWrite, hs]

theorem consume_withScript (s : State) (h : Handlers) (l : List HostAction) :
    (s.withScript l).consume h = (s.consume h).withScript l := by
  cases hq : s.host.inQ <;> simp [State.consume, HostSide.inRead, State.withScript, hq]

/-- The events of a command in progress do the same under any script. -/
theorem advance_withScript (s : State) (h : Handlers) (l : List HostAction) :
    (s.withScript l).advance h = (s.advance h).withScript l := by
  change (if s.emitEnabled then (s.withScript l).emit else if s.consumeEnabled then (s.withScript l).consume h
    else if s.tailEnabled then (s.tail h).withScript l else if s.completeEnabled then (s.complete h).withScript l
    else s.withScript l) = _
  rw [emit_withScript, consume_withScript]
  unfold State.advance
  split_ifs <;> rfl

/-- So does the whole event of a command, in either phase. -/
theorem commandEvent_withScript (s : State) (h : Handlers) (i : Instr) (l : List HostAction) :
    (s.withScript l).commandEvent h i = (s.commandEvent h i).withScript l := by
  unfold State.commandEvent
  rw [advance_withScript, State.withScript_block]
  cases s.block.phase with
  | idle => rfl
  | run => exact (apply_ite (State.withScript · l) (s.block.holds i = true) _ _).symm

theorem exec_withScript {i : Instr} {s t : State} (h : exec i s = .next t) (l : List HostAction) :
    exec i (s.withScript l) = .next (t.withScript l) := by
  rw [exec_eq] at h ⊢
  rw [commandEvent_withScript, Host.Outcome.next.inj h]

/-- ACCEPT, of a legal word or an illegal one, does the same under any script. -/
theorem acceptWord_withScript {s t : State} {w : Word64} (h : s.acceptWord w = .next t) (l : List HostAction) :
    (s.withScript l).acceptWord w = .next (t.withScript l) := by
  unfold State.acceptWord at h ⊢
  cases hd : decodeCmd w with
  | ok i =>
    simp only [hd] at h ⊢
    exact exec_withScript h l
  | error e =>
    simp only [hd, Host.Outcome.next.injEq] at h ⊢
    rw [← h]
    rfl

/-- A turn of the block does the same under any script, and leaves the script as it is. -/
theorem blockTurn_withScript {s t : State} (h : blockTurn s = .next t) (l : List HostAction) :
    blockTurn (s.withScript l) = .next (t.withScript l) := by
  cases hp : s.block.phase with
  | idle =>
    cases hq : s.host.cmdQ with
    | cons w ws =>
      rw [blockTurn_idle_word hp hq] at h
      rw [blockTurn_idle_word (by exact hp) (by exact hq)]
      exact acceptWord_withScript h l
    | nil =>
      rw [blockTurn_idle_none hp hq] at h
      rw [blockTurn_idle_none (by exact hp) (by exact hq), ← Host.Outcome.next.inj h, emit_withScript]
      exact congrArg _ (apply_ite (State.withScript · l) (s.emitEnabled = true) _ _).symm
  | run =>
    cases hc : s.block.current with
    | some i =>
      rw [blockTurn_run hp hc] at h
      rw [blockTurn_run (by exact hp) (by exact hc)]
      exact exec_withScript h l
    | none =>
      simp only [blockTurn, hp, hc] at h
      split at h
      · next he =>
        have he' : (s.withScript l).emitEnabled = true := he
        simp [blockTurn, hp, hc, he', emit_withScript, ← Host.Outcome.next.inj h]
      · cases h

/-- Settles O7: the block's turn is the same under the script it is given. -/
theorem scriptedTurnIsStepOfBlock : Obligations.ScriptedTurnIsStepOfBlock := by
  intro s t rest h
  have hturn : ∀ l, blockTurn (s.withScript l) = .next (t.withScript l) := blockTurn_withScript (s := s.withScript []) h
  refine ⟨fun hs => ?_, fun hs hc => ?_, fun hs hc => ?_⟩
  · simp only [step, turn, hs]
    exact hturn rest
  · simp only [step, turn, hs, State.pollDone_eq, hc]
    exact State.withScript_self s _ hs ▸ hturn (.poll :: rest)
  · simp [step, turn, hs, hc]

/-! ## The illegal word, and the pseudo-instruction -/

/-- Settles O8: ACCEPT of a word that does not decode is `acceptIllegal`. -/
theorem illegalWordCompletesAtAccept : Obligations.IllegalWordCompletesAtAccept := by
  intro w
  refine ⟨decodeCmd_error_iff.trans Or.comm, fun s ws e hp hs hq hd => ?_⟩
  rw [step_quiet hs, blockTurn_idle_word hp hq]
  simp only [State.acceptWord, hd, Host.Outcome.next.injEq, State.mk.injEq, and_true]
  rw [← hp]
  rfl

/-- Settles O60, by the form of the line. -/
theorem pseudoInstructionIsItsExpansion : Obligations.PseudoInstructionIsItsExpansion := by
  intro l
  cases l with
  | commandWith m bs => cases bs <;> simp [Line.expand, Line.actions, assemble]
  | _ => simp [Line.expand, Line.actions, assemble]

end Sys2Proof.Machine
end

section
/-! O48. A supplied command takes one event a step and never waits, so it completes after exactly the events of R78; the
host then finds its output at the end of the output stream. -/

namespace Sys2Proof.Machine

/-! ## How many bytes a command writes -/

theorem escape_length_le (s : List Byte) : (escape s).length ≤ 2 * s.length := by
  induction s with
  | nil => simp [escape]
  | cons x xs ih =>
    have hx := (escByte_length x).2
    simp only [escape, List.length_append, List.length_cons]
    omega

/-- A command writes at most two bytes for each it reads, and six more for a frame's delimiters and checksum (R21). -/
theorem tx_out_length_le (i : Instr) (s : List Byte) : (tx i s).out.length ≤ 2 * s.length + 6 := by
  have hunesc (r : List Byte) : (unescapeRun r).1.length ≤ r.length := unescFold_length .normal false r
  cases i with
  | escape n => exact Nat.le_add_right_of_le (escape_length_le s)
  | unescape n =>
    have h := hunesc s
    simp only [tx, txUnescape]
    omega
  | checksum n => simp [tx, txChecksum, checksum, byteForm]
  | encodeFrame n =>
    have h := escape_length_le (s ++ checksum s)
    simp only [List.length_append, checksum, byteForm, List.length_cons, List.length_nil] at h
    simp only [tx, txEncodeFrame, encodeFrame, checksum, byteForm, List.length_append, List.length_cons, List.length_nil]
    omega
  | decodeFrame n =>
    have h := hunesc (frameInterior s)
    simp only [frameInterior, List.length_dropLast, List.length_drop] at h
    simp only [tx, txDecodeFrame, decodeEmitted, dropLast2, frameInterior, List.length_take]
    omega

/-! ## STAGE only grows while nothing is emitted -/

/-- Taking back the staged bytes themselves only forgets the count of written ones. -/
theorem unwrite_stage (b : Block) : { b with stage := [] }.unwrite b.stage = b.unwrite [] := by
  simp [Block.unwrite]

/-- CONSUME appends to STAGE: no handler looks at what is staged (R70, R74). -/
theorem stage_isPrefix_consumeByte (i : Instr) (b : Block) (x : Byte) : b.stage <+: (b.consumeByte i x).stage := by
  have h := consumeByte_unwrite i { b with stage := [] } b.stage x
  rw [unwrite_stage, consumeByte_unwrite] at h
  exact ⟨_, (congrArg (·.stage) h).symm⟩

/-- TAIL appends to STAGE (R72). -/
theorem stage_isPrefix_runTail (i : Instr) (b : Block) : b.stage <+: (b.runTail i).stage := by
  have h := runTail_unwrite i { b with stage := [] } b.stage
  rw [unwrite_stage, runTail_unwrite] at h
  exact ⟨_, (congrArg (·.stage) h).symm⟩

theorem stage_isPrefix_foldl_consumeByte (i : Instr) (rest : List Byte) (b : Block) :
    b.stage <+: (rest.foldl (Block.consumeByte i) b).stage := by
  induction rest generalizing b with
  | nil => exact ⟨[], List.append_nil _⟩
  | cons x xs ih => exact (stage_isPrefix_consumeByte i b x).trans (ih _)

/-- What has been staged of a part of the input begins what the whole input yields. -/
theorem fed_stage_isPrefix (i : Instr) (input rest : List Byte) :
    (Block.fed i input).stage <+: ((Block.fed i (input ++ rest)).runTail i).stage := by
  refine List.IsPrefix.trans ?_ (stage_isPrefix_runTail i _)
  rw [Block.fed, Block.fed, List.foldl_append]
  exact stage_isPrefix_foldl_consumeByte i rest _

/-! ## A command whose host has supplied everything -/

/-- IDX has reached CUR_LEN exactly when LEN bytes have been consumed (R25). -/
theorem State.Progress.idx_eq_curLen_iff {i : Instr} {s u : State} {input written : List Byte}
    (p : State.Progress i s u input written) (hw : i.wellFormed = true) :
    u.block.idx = u.block.curLen ↔ input.length = i.len := by
  rw [← p.idx_toNat hw, ← lenField_toNat hw, ← p.len, BitVec.toNat_inj]

/-- Command `i`, accepted in `s`, is in progress in `u` after `k` events, and nothing but the block has moved since. -/
structure State.Served (i : Instr) (s u : State) (input written : List Byte) (k : Nat) : Prop
    extends State.Progress i s u input written where
  events : k = input.length + written.length + u.block.tailDone.toNat
  host : u.host = { s.host with inQ := u.host.inQ, outStream := u.host.outStream }

/-- The host of `s` has supplied the input of command `i`, `input` and then `more`, accepts every output byte, and leaves
every turn to the block (R53, R129). -/
structure State.Supplies (i : Instr) (s : State) (input more : List Byte) : Prop where
  wellFormed : i.wellFormed = true
  bytes : s.host.inQ = input ++ more
  exact_length : input.length = i.len
  accepts : s.host.outAccepts = true
  quiet : s.host.script = []

/-- A command accepted in `s`, its word already taken, has completed in `t` with the result `r`: the block reports it,
`more` is left of the input, the output is written, and the rest of the host's side is as it was (R76). -/
structure State.Finished (s t : State) (r : TxResult) (more : List Byte) : Prop where
  host : t.host = { s.host with inQ := more, outStream := s.host.outStream ++ r.out }
  phase : t.block.phase = .idle
  cmpl : t.block.cmpl = true
  code : t.block.code = r.code.value
  acc : t.block.acc = r.csum
  outcnt : t.block.outcnt = BitVec.ofNat 64 r.out.length

section
variable {i : Instr} {s u : State} {full more : List Byte} (hsup : s.Supplies i full more)
include hsup

theorem State.Served.of_accept :
    State.Served i s { s with block := s.block.acceptLegal (handlersOf i) i } [] [] 0 where
  toProgress := .accept s i (by simp [hsup.quiet])
  events := by rw [Block.acceptLegal_eq]; rfl
  host := rfl

variable {input written : List Byte} {k : Nat} (p : State.Served i s u input written k)
include p

theorem State.Served.quiet : u.host.script = [] := by rw [p.host, hsup.quiet]

theorem State.Served.accepts : u.host.outAccepts = true := by rw [p.host, hsup.accepts]

/-- The input not yet consumed is the rest of what was supplied. -/
theorem State.Served.rest : ∃ rest, full = input ++ rest ∧ u.host.inQ = rest ++ more := by
  have hcons : full ++ more = input ++ u.host.inQ := by
    simpa [State.inputToCome, hsup.quiet, p.quiet hsup, hsup.bytes] using p.consumed
  have hfits := p.fits
  obtain ⟨surplus, hinput, -⟩ | h := List.append_eq_append_iff.1 hcons
  · have hnil : surplus = [] := by
      rw [hinput, List.length_append, hsup.exact_length] at hfits
      exact List.eq_nil_of_length_eq_zero (by omega)
    subst hnil
    rw [List.append_nil] at hinput
    exact ⟨[], by simp [hinput], by simpa [hinput] using hcons.symm⟩
  · exact h

/-- What is written so far begins what `Tx` answers, so it is no longer (R76). -/
theorem State.Served.written_isPrefix : written <+: (tx i full).out := by
  obtain ⟨rest, hfull, -⟩ := p.rest hsup
  have htarget : written <+: (Block.target i input u.block.tailDone).stage := by
    rw [← p.target]
    exact ⟨u.block.stage, rfl⟩
  refine htarget.trans ?_
  rw [← (fed_yields hsup.wellFormed hsup.exact_length).out, hfull]
  cases ht : u.block.tailDone with
  | false => exact fed_stage_isPrefix i input rest
  | true =>
    have hidx : input.length = i.len := (p.idx_eq_curLen_iff hsup.wellFormed).1 (p.inv.tail_idx ht)
    have hrest : rest = [] := by
      have hlen := hsup.exact_length
      rw [hfull, List.length_append] at hlen
      exact List.eq_nil_of_length_eq_zero (by omega)
    simp [hrest]

/-- A command in progress has not had as many events as it has in all (R78). -/
theorem State.Served.events_le : k ≤ i.len + (tx i full).out.length + 1 := by
  have hwritten := (p.written_isPrefix hsup).length_le
  have hfits := p.fits
  have htail := Bool.toNat_le u.block.tailDone
  have hk := p.events
  omega

/-- An event of the command is enabled: the host withholds nothing it needs. -/
theorem State.Served.advance_ne : u.advance (handlersOf i) ≠ u := by
  rw [Ne, advance_eq_self_iff]
  rintro ⟨hc, he, ht, hd⟩
  have hstage : u.block.stage = [] := by simpa [State.emitEnabled, p.accepts hsup] using he
  obtain ⟨rest, hfull, hq⟩ := p.rest hsup
  have hlen := hsup.exact_length
  rw [hfull, List.length_append] at hlen
  cases rest with
  | cons x xs =>
    have hlt : u.block.idx < u.block.curLen := by
      rw [BitVec.lt_def, p.idx_toNat hsup.wellFormed, p.len, lenField_toNat hsup.wellFormed, ← hlen, List.length_cons]
      omega
    simp [State.consumeEnabled, p.run, hstage, hlt, hq] at hc
  | nil =>
    have heq : u.block.idx = u.block.curLen := (p.idx_eq_curLen_iff hsup.wellFormed).2 hlen
    cases htail : u.block.tailDone with
    | false => simp [State.tailEnabled, p.run, hstage, heq, htail] at ht
    | true => simp [State.completeEnabled, p.run, hstage, heq, htail] at hd

/-- COMPLETE of a served command is its last event (R73, R78). -/
theorem State.Served.complete (r : u.CompleteReady i) :
    let t : State := { u with block := { u.block.report ((handlersOf i).verdict u.block) with phase := .idle } }
    s.Finished t (tx i full) more ∧ k = i.len + (tx i full).out.length + 1 := by
  obtain ⟨input', hlen, hcons, hwrote, hcmpl, hcode, hacc, hcnt⟩ := p.toProgress.complete hsup.wellFormed r
  have hbytes : full ++ more = input' ++ u.host.inQ := by
    simpa [State.inputToCome, hsup.quiet, p.quiet hsup, hsup.bytes] using hcons
  obtain ⟨rfl, hmore⟩ := List.append_inj hbytes (hsup.exact_length.trans hlen.symm)
  have hout : written = (tx i full).out := List.append_cancel_left (p.wrote.symm.trans hwrote)
  have hidx : input.length = i.len := (p.idx_eq_curLen_iff hsup.wellFormed).1 r.idx
  refine ⟨⟨?_, rfl, hcmpl, hcode, hacc, hcnt⟩, ?_⟩
  · rw [hmore, ← hwrote]
    exact p.host
  · rw [p.events, r.tailDone, hidx, hout]
    rfl

/-- Every step of a served command is one of its events. -/
theorem State.Served.step :
    ∃ v, step u = .next v ∧
      ((∃ input' written', State.Served i s v input' written' (k + 1))
        ∨ (s.Finished v (tx i full) more ∧ k = i.len + (tx i full).out.length + 1)) := by
  have hstep : Machine.step u = exec i u := stepRunsCommandInProgress u i p.toRunning hsup.wellFormed (p.quiet hsup)
  rw [hstep, exec_running p.toRunning]
  refine ⟨_, rfl, ?_⟩
  have hne := p.advance_ne hsup
  have e := advance_commandStep p.toRunning
  generalize u.advance (handlersOf i) = v at e hne
  have hk := p.events
  cases e with
  | wait => exact absurd rfl hne
  | accept hp => simp [p.run] at hp
  | emit r =>
    refine .inl ⟨_, _, ⟨p.toProgress.emit r, ?_, by rw [p.host]; rfl⟩⟩
    simp only [hk, List.length_append, List.length_singleton]
    omega
  | @consume x xs r =>
    obtain ⟨-, -, -, -, -, -, ftail, -⟩ := onByte_frame i x u.block
    refine .inl ⟨_, _, ⟨p.toProgress.consume hsup.wellFormed r, ?_, by rw [p.host]⟩⟩
    simp only [hk, List.length_append, List.length_singleton, ftail]
    omega
  | tail r =>
    refine .inl ⟨_, _, ⟨p.toProgress.tail r, ?_, by rw [p.host]⟩⟩
    rw [hk, r.tailDone]
    rfl
  | complete r => exact .inr (p.complete hsup r)

/-- A served command is in progress until its last event (R78). -/
theorem State.Served.after {n : Nat} (hn : k + n ≤ i.len + (tx i full).out.length + 1) :
    ∃ v input' written', Sys2Proof.core.run n u = .next v ∧ State.Served i s v input' written' (k + n) := by
  induction n generalizing u input written k with
  | zero => exact ⟨u, _, _, rfl, p⟩
  | succ n ih =>
    obtain ⟨v, hstep, ⟨_, _, q⟩ | ⟨-, hk⟩⟩ := p.step hsup
    · obtain ⟨t, input', written', hrun, hserved⟩ := ih q (by omega)
      exact ⟨t, input', written', (core_run_succ n hstep).trans hrun, by rwa [Nat.add_right_comm] at hserved⟩
    · omega
end

/-! ## A whole command -/

/-- Runs compose: `m + n` steps are `m` and then `n`. -/
theorem core_run_add {s t : State} (m n : Nat) (h : Sys2Proof.core.run m s = .next t) :
    Sys2Proof.core.run (m + n) s = Sys2Proof.core.run n t := by
  induction m generalizing s with
  | zero =>
    cases h
    rw [Nat.zero_add]
  | succ m ih =>
    obtain ⟨u, hstep, hrun⟩ := core_run_succ_inv h
    rw [Nat.succ_add, Nat.succ_eq_add_one, core_run_succ _ hstep, ih hrun]

/-- After ACCEPT a supplied command finishes in exactly the other events of R78. -/
theorem State.Supplies.run_finishes {i : Instr} {s : State} {input more : List Byte} (hsup : s.Supplies i input more) :
    ∃ t : State, Sys2Proof.core.run (i.len + (tx i input).out.length + 1 + 1)
        { s with block := s.block.acceptLegal (handlersOf i) i } = .next t
      ∧ s.Finished t (tx i input) more := by
  obtain ⟨u, _, _, hrun, p⟩ := (State.Served.of_accept hsup).after hsup (Nat.zero_add _).le
  obtain ⟨t, hstep, ⟨_, _, q⟩ | ⟨hfin, -⟩⟩ := p.step hsup
  · have hle := q.events_le hsup
    omega
  · exact ⟨t, (core_run_add _ 1 hrun).trans (core_run_succ 0 hstep), hfin⟩

/-- The state with the head of the command port taken (R37). -/
def State.takeWord (s : State) : State := { s with host := { s.host with cmdQ := s.host.cmdQ.tail } }

/-- The run of R78's events, for a legal word or an illegal one, ends with the result of `Tx` (R76). -/
theorem State.Supplied.run_finishes {s : State} {w : Word64} {input more : List Byte} (h : s.Supplied w input more) :
    ∃ t : State, Sys2Proof.core.run (eventCount w input) s = .next t
      ∧ s.takeWord.Finished t (txWord w input) more := by
  obtain ⟨ws, hq⟩ := List.head?_eq_some_iff.1 h.port
  have htake : s.takeWord = { s with host := { s.host with cmdQ := ws } } := by rw [State.takeWord, hq]; rfl
  cases hd : decodeCmd w with
  | ok i =>
    have hsup : s.takeWord.Supplies i input more :=
      ⟨(encodeOfDecodeIsIdentity w i hd).1, h.bytes, h.exact_length i hd, h.accepts, h.quiet⟩
    obtain ⟨t, hrun, hfin⟩ := hsup.run_finishes
    have hstep := stepAcceptsOfferedCommand s w ws i h.idle h.quiet hq hd
    rw [← htake, exec_eq, commandEvent_idle _ _ (by exact h.idle)] at hstep
    have htx : txWord w input = tx i input := by simp only [txWord, hd]
    have hcount : eventCount w input = i.len + (tx i input).out.length + 1 + 1 + 1 := by
      simp only [eventCount, hd, htx]
      omega
    rw [hcount, htx, core_run_succ _ hstep]
    exact ⟨t, hrun, hfin⟩
  | error e =>
    obtain rfl := h.no_input_if_illegal e hd
    have hstep := (illegalWordCompletesAtAccept w).2 s ws e h.idle h.quiet hq hd
    have htx : txWord w [] = ⟨[], .illegalCommand, 0⟩ := by simp only [txWord, hd]
    have hcount : eventCount w [] = 0 + 1 := by simp only [eventCount, hd]
    rw [hcount, htx, core_run_succ 0 hstep, htake]
    refine ⟨_, rfl, ?_, rfl, rfl, rfl, rfl, rfl⟩
    simp [show s.host.inQ = more from h.bytes]

/-! ## What the host finds -/

/-- The output of a supplied word is short enough for OUTCNT to count it (R21). -/
theorem State.Supplied.out_length_lt {s : State} {w : Word64} {input more : List Byte} (h : s.Supplied w input more) :
    (txWord w input).out.length < 2 ^ 64 := by
  unfold txWord
  cases hd : decodeCmd w with
  | ok i =>
    have hlen : i.len < Config.lenBound := of_decide_eq_true (encodeOfDecodeIsIdentity w i hd).1
    have hout := tx_out_length_le i input
    rw [h.exact_length i hd] at hout
    simp only [Config.lenBound_eq] at hlen
    exact hout.trans_lt (by omega)
  | error e => simp

/-- STATUS.CODE reads 0 for OK alone (R110). -/
theorem ResultCode.value_eq_ok_iff (c : ResultCode) : c.value = ResultCode.ok.value ↔ c = .ok := by
  cases c <;> decide

/-- Settles O48: the run ends as `Tx` says, OUTCNT counts the output without wrapping, and the output ends the stream. -/
theorem hostSeesLastCommandsOutput : Obligations.HostSeesLastCommandsOutput := by
  intro s t w input more h hrun
  obtain ⟨t', hrun', a⟩ := h.run_finishes
  obtain rfl : t' = t := Host.Outcome.next.inj (hrun'.symm.trans hrun)
  constructor
  · rw [State.lastOut, a.host, a.outcnt, BitVec.toNat_ofNat, Nat.mod_eq_of_lt h.out_length_lt]
    simp
  · simp [State.outputValid, a.cmpl, a.code, ResultCode.value_eq_ok_iff]

end Sys2Proof.Machine
end

section
/-! O19, O20, O23, O25 to O29, O32 to O34. The whole next state of each event of R70 to R73, command by command: `exec`
under the premise of the event, then the command's own handler. -/

namespace Sys2Proof.Machine

/-! ## `exec` under the premise of each event -/

theorem exec_consume {s : State} {i : Instr} {x : Byte} {xs : List Byte} (r : s.ConsumeReady i x xs) :
    exec i s = .next { block := s.block.consumeByte i x, host := { s.host with inQ := xs } } := by
  rw [exec_running r.toRunning, advance_consume _ r, Block.consumeByte]

theorem exec_tail {s : State} {i : Instr} (r : s.TailReady i) :
    exec i s = .next { s with block := s.block.runTail i } := by
  rw [exec_running r.toRunning, advance_tail _ r, Block.runTail]

theorem exec_complete {s : State} {i : Instr} (r : s.CompleteReady i) :
    exec i s = .next
      { s with block := { s.block.report ((handlersOf i).verdict s.block) with phase := .idle } } := by
  rw [exec_running r.toRunning, advance_complete _ r]

/-! ## The commands that treat every byte alike -/

/-- Settles O19. -/
theorem escapeConsumesByte : Obligations.EscapeConsumesByte := by
  intro s len x xs r
  rw [exec_consume r]
  simp [Block.consumeByte, handlersOf, escapeHandlers, Block.stageBytes, r.stage]

/-- Settles O20. -/
theorem unescapeConsumesByte : Obligations.UnescapeConsumesByte := by
  intro s len x xs r
  rw [exec_consume r]
  simp [Block.consumeByte, handlersOf, unescapeHandlers, unescapeOnByte, Block.stageBytes, r.stage]

/-- Settles O23. -/
theorem checksumConsumesByte : Obligations.ChecksumConsumesByte := by
  intro s len x xs r
  rw [exec_consume r]
  rfl

/-- Settles O25. -/
theorem encodeFrameConsumesByte : Obligations.EncodeFrameConsumesByte := by
  intro s len x xs r
  rw [exec_consume r]
  simp [Block.consumeByte, handlersOf, encodeFrameHandlers, Block.accAdd, Block.stageBytes, r.stage]

/-! ## DECODE_FRAME, by the position of the byte -/

/-- A byte of a frame that is neither the first nor the last is an interior byte (R101). -/
theorem exec_consume_interior {s : State} {len : Nat} {x : Byte} {xs : List Byte}
    (r : s.ConsumeReady (.decodeFrame len) x xs) (h0 : s.block.idx ≠ 0)
    (hl : s.block.idx.toNat + 1 ≠ s.block.curLen.toNat) :
    exec (.decodeFrame len) s = .next
      { block :=
          ((unescStep s.block.uState s.block.escErr x).out.toList.foldl Block.dlPush s.block).setUnescape
            (unescStep s.block.uState s.block.escErr x).uState (unescStep s.block.uState s.block.escErr x).escErr
            (s.block.idx + 1)
        host := { s.host with inQ := xs } } := by
  have hlt : s.block.idx.toNat < s.block.curLen.toNat := r.idx
  rw [exec_consume r, consumeByte_interior len x h0 (by omega)]

/-- Settles O27: the first and the last byte run no unescape step. -/
theorem decodeFrameChecksDelimiters : Obligations.DecodeFrameChecksDelimiters := by
  intro s len x xs r
  rw [exec_consume r]
  constructor
  · intro h0
    rw [consumeByte_first len x h0]
  · intro h0 hl
    rw [consumeByte_last len x h0 hl]

/-- Settles O28. -/
theorem decodeFrameConsumesSilentByte : Obligations.DecodeFrameConsumesSilentByte := by
  intro s len x xs r h0 hl hout
  rw [exec_consume_interior r h0 hl, hout]
  rfl

/-- Settles O29, by how full the delay line is. -/
theorem decodeFrameDelaysOutput : Obligations.DecodeFrameDelaysOutput := by
  intro s len x xs u r h0 hl hout
  rw [exec_consume_interior r h0 hl, hout, Option.toList_some, List.foldl_cons, List.foldl_nil]
  constructor
  · intro hshort
    rw [dlPush_short u hshort]
    rfl
  · intro old young hfull
    rw [dlPush_full u hfull, r.stage]
    rfl

/-! ## EMIT, TAIL and COMPLETE -/

/-- Settles O26. -/
theorem encodeFrameTailStagesChecksum : Obligations.EncodeFrameTailStagesChecksum := by
  intro s len r
  rw [exec_tail r]
  simp [Block.runTail, handlersOf, encodeFrameHandlers, Block.stageBytes, lowByte_eq, highByte_eq, r.stage]

/-- Settles O32: EMIT runs no handler. -/
theorem emitWritesHeadOfStage : Obligations.EmitWritesHeadOfStage := by
  intro s i x xs r
  rw [exec_running r.toRunning, advance_emit _ r]
  rfl

/-- Settles O33: the three rows of R74 whose onTail does nothing. -/
theorem tailOfSilentCommands : Obligations.TailOfSilentCommands := by
  intro s i r hi
  rw [exec_tail r]
  obtain ⟨n, rfl | rfl | rfl⟩ := hi <;> rfl

/-- Settles O34: the three rows of R74 whose verdict is always OK. -/
theorem completeOfUnfailingCommands : Obligations.CompleteOfUnfailingCommands := by
  intro s i r hi
  rw [exec_complete r]
  obtain ⟨n, rfl | rfl | rfl⟩ := hi <;> rfl

end Sys2Proof.Machine
end

section
/-! O42, O46, O49. At most one event is enabled; a supplied command is busy from ACCEPT to its last event, and that event
leaves the results of `Tx`. -/

namespace Sys2Proof.Machine

/-- Settles O42: PHASE parts ACCEPT from the others, STAGE parts EMIT, IDX parts CONSUME, and TAIL_DONE parts TAIL from
COMPLETE (R75). -/
theorem atMostOneEventEnabled : Obligations.AtMostOneEventEnabled := by
  intro s hi
  unfold State.acceptEnabled State.consumeEnabled State.emitEnabled State.tailEnabled State.completeEnabled
  cases hp : s.block.phase with
  | idle =>
    have hstage := hi.idle_stage hp
    cases s.host.cmdQ <;> simp [hstage]
  | run =>
    cases s.block.stage with
    | cons x xs => cases s.host.outAccepts <;> simp
    | nil =>
      by_cases hidx : s.block.idx = s.block.curLen
      · cases s.block.tailDone <;> simp [hidx]
      · cases s.host.inQ with
        | nil => simp [hidx]
        | cons x xs => cases decide (s.block.idx < s.block.curLen) <;> simp [hidx]

/-- Settles O46: the run of R78's events finishes the word that the port held. -/
theorem runAgreesWithTransaction : Obligations.RunAgreesWithTransaction := by
  intro s w input more h
  obtain ⟨t, hrun, a⟩ := h.run_finishes
  exact ⟨t, hrun, a.host, a.phase, a.cmpl, a.code, a.acc, a.outcnt⟩

/-- The host that has supplied a legal word has supplied the command it decodes to. -/
theorem State.Supplied.supplies {s : State} {w : Word64} {input more : List Byte} {i : Instr}
    (h : s.Supplied w input more) (hd : decodeCmd w = .ok i) : s.takeWord.Supplies i input more where
  wellFormed := (encodeOfDecodeIsIdentity w i hd).1
  bytes := h.bytes
  exact_length := h.exact_length i hd
  accepts := h.accepts
  quiet := h.quiet

/-- The first event of a supplied legal word is its ACCEPT (R69). -/
theorem State.Supplied.step_accept {s : State} {w : Word64} {input more : List Byte} {i : Instr}
    (h : s.Supplied w input more) (hd : decodeCmd w = .ok i) :
    step s = .next { s.takeWord with block := s.takeWord.block.acceptLegal (handlersOf i) i } := by
  obtain ⟨ws, hq⟩ := List.head?_eq_some_iff.1 h.port
  rw [stepAcceptsOfferedCommand s w ws i h.idle h.quiet hq hd, exec_eq, commandEvent_idle _ _ (by exact h.idle)]
  simp [State.takeWord, hq]

/-- The events of a legal word (R78). -/
theorem eventCount_legal {w : Word64} {i : Instr} (input : List Byte) (hd : decodeCmd w = .ok i) :
    eventCount w input = i.len + (tx i input).out.length + 3 := by
  simp only [eventCount, txWord, hd]
  omega

/-- Settles O49: after ACCEPT the command is served until its last event, and a block in RUN has CMPL = 0. -/
theorem commandIsBusyUntilItsLastEvent : Obligations.CommandIsBusyUntilItsLastEvent := by
  intro s w input more i k h hd hpos hk
  obtain ⟨n, rfl⟩ := Nat.exists_eq_add_one_of_ne_zero hpos.ne'
  rw [eventCount_legal input hd] at hk
  have hsup := h.supplies hd
  obtain ⟨t, _, _, hrun, p⟩ := (State.Served.of_accept hsup).after hsup (n := n) (by omega)
  obtain ⟨-, hcmpl⟩ := p.inv.busy_code p.run
  exact ⟨t, (core_run_succ n (h.step_accept hd)).trans hrun, p.run, hcmpl⟩

end Sys2Proof.Machine
end

section
/-! O51, O52, O17, O18, O21. The Byte Escaper: which bytes it escapes and how, where its output holds an escape byte, and
the unescape machine that inverts it. -/

namespace Sys2Proof.Machine

/-! ## The escape of one byte -/

theorem isReserved_iff (x : Byte) : isReserved x = true ↔ x = 0x01 ∨ x = 0x02 ∨ x = 0x03 := by
  simp [isReserved, Config.sof, Config.eof, Config.esc, or_assoc]

theorem escByte_of_reserved {x : Byte} (h : isReserved x = true) : escByte x = [0x03, x + 0x03] := by
  rw [escByte, if_pos h]

theorem escByte_of_not_reserved {x : Byte} (h : ¬isReserved x = true) : escByte x = [x] :=
  if_neg h

/-- A byte is escaped to a pair exactly when it is reserved (R81). -/
theorem escByte_length_eq (x : Byte) : (escByte x).length = 1 + if isReserved x = true then 1 else 0 := by
  split
  next h => rw [escByte_of_reserved h, List.length_cons, List.length_singleton]
  next h => rw [escByte_of_not_reserved h, List.length_singleton]

/-- The second byte of an escape pair lies in `0x04..0x06` (R81). -/
theorem reserved_add_offset_range {x : Byte} (h : isReserved x = true) :
    4 ≤ (x + 0x03).toNat ∧ (x + 0x03).toNat ≤ 6 := by
  obtain rfl | rfl | rfl := (isReserved_iff x).1 h <;> decide

/-- The second byte of an escape pair is no reserved byte (R83). -/
theorem reserved_add_offset_not_reserved {x : Byte} (h : isReserved x = true) : ¬isReserved (x + 0x03) = true := by
  obtain rfl | rfl | rfl := (isReserved_iff x).1 h <;> decide

/-- Settles O17. -/
theorem byteEscapeTable : Obligations.ByteEscapeTable := by
  intro x
  refine ⟨isReserved_iff x, ?_, rfl, rfl, rfl⟩
  by_cases h : isReserved x = true
  · rw [escByte_of_reserved h, if_pos ((isReserved_iff x).1 h)]
  · rw [escByte_of_not_reserved h, if_neg (mt (isReserved_iff x).2 h)]

/-! ## The escape of a sequence -/

/-- `escape` adds one byte for each reserved byte (R83). -/
theorem escape_length (s : List Byte) : (escape s).length = s.length + s.countP isReserved := by
  induction s with
  | nil => rfl
  | cons x xs ih =>
    rw [escape, List.length_append, ih, List.length_cons, List.countP_cons]
    have hx := escByte_length_eq x
    omega

/-- The escape byte is the one reserved byte that an escape holds (R83). -/
theorem eq_esc_of_mem_escByte {x y : Byte} (hy : y ∈ escByte x) (hr : isReserved y = true) : y = 0x03 := by
  by_cases h : isReserved x = true
  · rw [escByte_of_reserved h, List.mem_pair] at hy
    exact hy.resolve_right fun e => reserved_add_offset_not_reserved h (e ▸ hr)
  · rw [escByte_of_not_reserved h, List.mem_singleton] at hy
    exact absurd (hy ▸ hr) h

theorem eq_esc_of_mem_escape {s : List Byte} {y : Byte} (hy : y ∈ escape s) (hr : isReserved y = true) : y = 0x03 := by
  induction s with
  | nil => cases hy
  | cons x xs ih => exact (List.mem_append.1 hy).elim (eq_esc_of_mem_escByte · hr) ih

/-- An escape byte in `escByte x` is the first byte of the pair of a reserved `x` (R81). -/
theorem escByte_getElem?_esc {x : Byte} {k : Nat} (hk : (escByte x)[k]? = some 0x03) : isReserved x = true ∧ k = 0 := by
  by_cases h : isReserved x = true
  · refine ⟨h, ?_⟩
    rw [escByte_of_reserved h] at hk
    match k, hk with
    | 0, _ => rfl
    | 1, hk =>
      have he : x + 0x03 = 0x03 := by simpa using hk
      exact absurd (show isReserved (x + 0x03) = true by rw [he]; rfl) (reserved_add_offset_not_reserved h)
  · rw [escByte_of_not_reserved h, List.getElem?_singleton] at hk
    split at hk
    · cases hk
      exact absurd rfl h
    · cases hk

/-- An escape byte in `escape s` stands where the escape of a reserved byte of `s` begins (R83). -/
theorem escape_getElem?_esc {s : List Byte} {k : Nat} (hk : (escape s)[k]? = some 0x03) :
    ∃ before x after, s = before ++ x :: after ∧ isReserved x = true ∧ k = (escape before).length := by
  induction s generalizing k with
  | nil => cases hk
  | cons y ys ih =>
    rw [escape] at hk
    by_cases hlt : k < (escByte y).length
    · rw [List.getElem?_append_left hlt] at hk
      obtain ⟨hr, h0⟩ := escByte_getElem?_esc hk
      exact ⟨[], y, ys, rfl, hr, h0⟩
    · rw [List.getElem?_append_right (Nat.le_of_not_lt hlt)] at hk
      obtain ⟨before, x, after, rfl, hr, hpos⟩ := ih hk
      refine ⟨y :: before, x, after, rfl, hr, ?_⟩
      rw [escape, List.length_append]
      omega

/-- The byte after the start of a reserved byte's escape is that byte plus the offset (R81). -/
theorem escape_getElem?_after_esc (before after : List Byte) {x : Byte} (h : isReserved x = true) :
    (escape (before ++ x :: after))[(escape before).length + 1]? = some (x + 0x03) := by
  rw [escape_append, escape, escByte_of_reserved h, List.getElem?_append_right (Nat.le_add_right _ _)]
  simp

/-- Settles O51: the two bounds follow from the exact length, and a reserved byte of the output is an escape byte. -/
theorem escapeProperties : Obligations.EscapeProperties := by
  intro s
  refine ⟨⟨escape_length s, ?_, escape_length_le s⟩, ⟨fun h => ?_, fun h => ?_⟩, fun k hk => ?_, escape_append s⟩
  · rw [escape_length]
    exact Nat.le_add_right _ _
  · exact absurd (eq_esc_of_mem_escape h rfl) (by decide)
  · exact absurd (eq_esc_of_mem_escape h rfl) (by decide)
  · obtain ⟨before, x, after, rfl, hr, rfl⟩ := escape_getElem?_esc hk
    obtain ⟨hlow, hhigh⟩ := reserved_add_offset_range hr
    exact ⟨before, x, after, x + 0x03, rfl, hr, rfl, escape_getElem?_after_esc before after hr, rfl, hlow, hhigh⟩

/-! ## Unescaping -/

/-- Each byte's escape returns the unescape machine to NORMAL, so the escapes of a sequence fold one after the other. -/
theorem unescFold_escape (s : List Byte) : unescFold .normal false (escape s) = (.normal, false, s) := by
  induction s with
  | nil => rfl
  | cons x xs ih => rw [escape, unescFold_append, unescFold_escByte, ih, List.singleton_append]

/-- Settles O52. -/
theorem unescapeInvertsEscape : Obligations.UnescapeInvertsEscape := by
  intro s
  have hrun : unescapeRun (escape s) = (s, true) := by
    rw [unescapeRun, unescFold_escape]
    rfl
  exact ⟨hrun, unescape_eq_ok.2 hrun⟩

/-- The bytes that may follow an escape byte, as the model compares them, are `0x04..0x06` (R84). -/
theorem escCont_iff (x : Byte) : Config.escContLow ≤ x ∧ x ≤ Config.escContHigh ↔ 4 ≤ x.toNat ∧ x.toNat ≤ 6 :=
  Iff.rfl

/-- Settles O18. -/
theorem unescapeStepTable : Obligations.UnescapeStepTable := by
  intro st x
  refine ⟨rfl, rfl, fun hx => ?_, fun hx => ?_, fun hx => ?_, fun b => rfl⟩
  · exact if_neg hx
  · exact if_pos ((escCont_iff x).2 hx)
  · exact if_neg (mt (escCont_iff x).1 hx)

/-- The end check as a code: MALFORMED_PAYLOAD is 2 and OK is 0 (R85, R110). -/
theorem unescVerdict_value (b : Block) :
    (unescVerdict b).value = if b.escErr = true ∨ b.uState = .escaped then 2 else 0 := by
  unfold unescVerdict unescOk
  cases b.escErr <;> cases b.uState <;> rfl

/-- Settles O21. -/
theorem unescapeCompletesWithVerdict : Obligations.UnescapeCompletesWithVerdict := by
  intro s len r
  rw [exec_complete r, ← unescVerdict_value]
  rfl

end Sys2Proof.Machine
end

section
/-! O53, O54, O22. The Checksum Unit: adding a byte at a time is summing, and which changes of a sequence its sum shows. -/

namespace Sys2Proof.Machine

theorem addByte_toNat (acc : Word16) (x : Byte) : (addByte acc x).toNat = (acc.toNat + x.toNat) % 65536 := by
  have hx : x.toNat < 65536 := Nat.lt_trans x.isLt (by decide)
  rw [addByte, BitVec.toNat_add, BitVec.toNat_setWidth, Nat.mod_eq_of_lt hx]

/-- Settles O22. -/
theorem checksumAddWraps : Obligations.ChecksumAddWraps := by
  intro b x
  exact ⟨addByte_toNat b.acc x, rfl⟩

/-- Adding a sequence's bytes one by one adds its sum, whatever ACC held before (R93). -/
theorem foldl_addByte (acc : Word16) (s : List Byte) : s.foldl addByte acc = acc + csumValue s := by
  induction s generalizing acc with
  | nil => exact (BitVec.add_zero acc).symm
  | cons x xs ih => rw [List.foldl_cons, ih, addByte_add_csumValue]

/-- Settles O53: R90's clear makes the value before the first byte zero. -/
theorem incrementalChecksumAgrees : Obligations.IncrementalChecksumAgrees := by
  intro s
  rw [foldl_addByte]
  exact BitVec.zero_add _

theorem csumValue_perm {s t : List Byte} (h : s.Perm t) : csumValue s = csumValue t := by
  rw [csumValue, csumValue, (h.map BitVec.toNat).sum_eq]

theorem csumValue_replicate_zero (n : Nat) : csumValue (List.replicate n 0) = 0 := by
  simp [csumValue]

/-- A byte is less than 2^16, so two different bytes stay different in ACC's width (R94). -/
theorem setWidth_byte_inj {x y : Byte} : x.setWidth 16 = y.setWidth 16 ↔ x = y := by
  refine ⟨fun h => ?_, congrArg _⟩
  have hw := congrArg (BitVec.setWidth 8) h
  simpa using hw

/-- With the rest of a sequence fixed, its sum determines each byte (R94, property 4). -/
theorem csumValue_replace_byte (p q : List Byte) {x y : Byte} :
    csumValue (p ++ x :: q) = csumValue (p ++ y :: q) ↔ x = y := by
  rw [csumValue_append, csumValue_append, BitVec.add_right_inj, csumValue_cons, csumValue_cons,
    BitVec.add_left_inj, setWidth_byte_inj]

/-- Settles O54. -/
theorem checksumSensitivity : Obligations.ChecksumSensitivity := by
  refine ⟨fun s t h => ?_, fun s n => ?_, fun p q x y hne => ?_, by decide⟩
  · rw [checksum, checksum, csumValue_perm h]
  · rw [checksum, checksum, csumValue_append, csumValue_replicate_zero]
    exact congrArg byteForm (BitVec.add_zero _)
  · exact mt (csumValue_replace_byte p q).1 hne

end Sys2Proof.Machine
end

section
/-! O30, O31, O55 to O59. The Frame Codec: the shape of an encoded frame, exactly what the decoder accepts, the error it
gives for the rest, and DECODE_FRAME's delay line and verdict. -/

namespace Sys2Proof.Machine

/-! ## DECODE_FRAME's delay line and verdict -/

/-- Settles O31: the delay line's lemma for a line that begins empty. -/
theorem delayLineHoldsLastTwo : Obligations.DelayLineHoldsLastTwo := by
  intro b u hd
  rw [foldl_dlPush u (by rw [hd]; exact Nat.zero_le 2), hd, List.nil_append, dropLast2]

/-- Two held bytes are compared with ACC one by one or as a pair alike (R103, line 5). -/
theorem dl_ne_acc_iff {dl : List Byte} (h : 2 ≤ dl.length) (v : Word16) :
    (dl[0]? ≠ some (lowByte v) ∨ dl[1]? ≠ some (highByte v)) ↔
      dl.take 2 ≠ [BitVec.ofNat 8 v.toNat, BitVec.ofNat 8 (v.toNat / 256)] := by
  match dl, h with
  | x :: y :: _, _ => simp [lowByte_eq, highByte_eq, imp_iff_not_or]

/-- The verdict of R103 as a code of R110. -/
theorem decodeVerdict_value (b : Block) :
    (decodeVerdict b).value =
      if b.curLen.toNat < 4 then 1
      else if b.sofBad = true ∨ b.eofBad = true then 2
      else if b.escErr = true ∨ b.uState = .escaped then 2
      else if b.dl.length < 2 then 1
      else if b.dl.take 2 ≠ [BitVec.ofNat 8 b.acc.toNat, BitVec.ofNat 8 (b.acc.toNat / 256)] then 3
      else 0 := by
  simp only [decodeVerdict, Config.minFrame_eq, Bool.or_eq_true, decide_eq_true_eq]
  by_cases h2 : b.dl.length < 2
  · simp only [h2, if_true, apply_ite ResultCode.value]
    rfl
  · simp only [h2, if_false, dl_ne_acc_iff (Nat.le_of_not_lt h2), apply_ite ResultCode.value]
    rfl

/-- Settles O30. -/
theorem decodeFrameCompletesWithVerdict : Obligations.DecodeFrameCompletesWithVerdict := by
  intro s len r
  rw [exec_complete r, ← decodeVerdict_value]
  rfl

/-! ## The encoded frame -/

theorem frameInterior_encodeFrame (p : List Byte) : frameInterior (encodeFrame p) = escape (p ++ checksum p) :=
  frameInterior_delimited _ _ _

theorem encodeFrame_getLast? (p : List Byte) : (encodeFrame p).getLast? = some 0x02 :=
  List.getLast?_concat

/-- The two delimiters and at least one byte for each byte of the checksum (R97). -/
theorem four_le_encodeFrame_length (p : List Byte) : 4 ≤ (encodeFrame p).length := by
  have hlen : (p ++ checksum p).length = p.length + 2 := by simp [checksum, byteForm]
  have hesc := escape_length (p ++ checksum p)
  simp only [encodeFrame, List.length_append, List.length_singleton] at hesc hlen ⊢
  omega

/-- Settles O55: the interior is an escape, and R83 says which reserved bytes an escape holds. -/
theorem encodedFrameShape : Obligations.EncodedFrameShape := by
  intro p
  obtain ⟨-, ⟨hsof, heof⟩, hpair, -⟩ := escapeProperties (p ++ checksum p)
  rw [frameInterior_encodeFrame]
  refine ⟨rfl, encodeFrame_getLast? p, four_le_encodeFrame_length p, hsof, heof, fun k hk => ?_⟩
  obtain ⟨-, -, -, c, -, -, -, hnext, -, hrange⟩ := hpair k hk
  exact ⟨c, hnext, hrange⟩

/-! ## Decoding -/

/-- A sequence that is too short is rejected before its delimiters are looked at (R99, step 1). -/
theorem decodeFrame_short {f : List Byte} (h : f.length < 4) : decodeFrame f = .error .invalidLength :=
  if_pos h

/-- A long enough sequence with a wrong delimiter is rejected before its interior is looked at (R99, step 2). -/
theorem decodeFrame_misdelimited {f : List Byte} (h4 : 4 ≤ f.length)
    (h : f.head? ≠ some 0x01 ∨ f.getLast? ≠ some 0x02) : decodeFrame f = .error .malformedPayload := by
  rw [decodeFrame, if_neg (Nat.not_lt.2 h4), if_pos h]

/-- Settles O59. -/
theorem boundaryRejection : Obligations.BoundaryRejection :=
  fun _ => ⟨decodeFrame_short, decodeFrame_misdelimited⟩

/-- A delimited sequence whose interior unescapes to some bytes and the byte form of a value is accepted exactly when
that value is their checksum (R99, step 3). -/
theorem decodeFrame_delimited {t q : List Byte} {v : Word16} (h : unescape t = .ok (q ++ byteForm v)) :
    decodeFrame ([0x01] ++ t ++ [0x02]) = if csumValue q = v then .ok q else .error .invalidChecksum := by
  have hrun : unescapeRun t = (q ++ byteForm v, true) := unescape_eq_ok.1 h
  have hout : (unescapeRun t).1.length ≤ t.length := unescFold_length .normal false t
  have hlen : ¬([0x01] ++ t ++ [0x02]).length < Config.minFrame := by
    simp only [hrun, byteForm, List.length_append, List.length_cons, List.length_nil, Config.minFrame_eq] at hout ⊢
    omega
  have hdelim : ¬(([0x01] ++ t ++ [0x02]).head? ≠ some Config.sof
      ∨ ([0x01] ++ t ++ [0x02]).getLast? ≠ some Config.eof) :=
    not_or.2 ⟨not_not.2 rfl, not_not.2 List.getLast?_concat⟩
  have hsum : checksum q ≠ byteForm v ↔ ¬csumValue q = v :=
    not_congr ⟨byteForm_injective, congrArg byteForm⟩
  have hint : frameInterior ([0x01] ++ t ++ [0x02]) = t := frameInterior_delimited t _ _
  rw [decodeFrame, if_neg hlen, if_neg hdelim, hint, hrun]
  have hdrop : dropLast2 (q ++ byteForm v) = q := dropLast2_append_pair q _ _
  have hlast : last2 (q ++ byteForm v) = byteForm v := last2_append_pair q _ _
  have h2 : ¬(q ++ byteForm v).length < 2 := by simp [byteForm]
  simp only [hdrop, hlast, h2, hsum, if_false, Bool.true_eq_false, ite_not]

/-- A sequence with both delimiters is its interior between them (R100). -/
theorem eq_delimited {f : List Byte} (hsof : f.head? = some 0x01) (heof : f.getLast? = some 0x02) :
    f = [0x01] ++ frameInterior f ++ [0x02] := by
  obtain ⟨t, rfl⟩ := List.getLast?_eq_some_iff.1 heof
  cases t with
  | nil => cases hsof
  | cons x t =>
    obtain rfl : x = 0x01 := by simpa using hsof
    exact congrArg (fun m => [0x01] ++ m ++ [0x02]) (frameInterior_delimited t _ _).symm

/-- What the decoder has checked when it accepts: each of its steps passed (R99). -/
theorem decodeFrame_eq_ok {f p : List Byte} (h : decodeFrame f = .ok p) :
    f = [0x01] ++ frameInterior f ++ [0x02] ∧ unescape (frameInterior f) = .ok (p ++ checksum p) := by
  by_cases h4 : f.length < 4
  · cases (decodeFrame_short h4).symm.trans h
  by_cases hd : f.head? ≠ some 0x01 ∨ f.getLast? ≠ some 0x02
  · cases (decodeFrame_misdelimited (Nat.le_of_not_lt h4) hd).symm.trans h
  rw [decodeFrame, if_neg h4, if_neg hd] at h
  obtain ⟨hsof, heof⟩ := not_or.1 hd
  refine ⟨eq_delimited (not_not.1 hsof) (not_not.1 heof), ?_⟩
  rw [unescape_eq_ok]
  generalize unescapeRun (frameInterior f) = r at h ⊢
  dsimp only at h
  split_ifs at h with hok h2 hsum
  cases h
  rw [not_not.1 hsum, dropLast2_append_last2 (Nat.le_of_not_lt h2), ← Bool.eq_true_of_not_eq_false hok]

/-- Accepted sequences (R106). -/
theorem decodeFrame_eq_ok_iff {f p : List Byte} :
    decodeFrame f = .ok p ↔ ∃ t, f = [0x01] ++ t ++ [0x02] ∧ unescape t = .ok (p ++ checksum p) := by
  refine ⟨fun h => ⟨frameInterior f, decodeFrame_eq_ok h⟩, ?_⟩
  rintro ⟨t, rfl, ht⟩
  rw [decodeFrame_delimited ht, if_pos rfl]

theorem decodeFrame_encodeFrame (p : List Byte) : decodeFrame (encodeFrame p) = .ok p :=
  decodeFrame_eq_ok_iff.2 ⟨_, rfl, (unescapeInvertsEscape _).2⟩

/-- Settles O58. -/
theorem acceptedFrames : Obligations.AcceptedFrames :=
  ⟨fun _ _ => decodeFrame_eq_ok_iff, decodeFrame_encodeFrame, by decide⟩

/-- DECODE_FRAME writes the payload of a frame it accepts (R100, R106). -/
theorem decodeEmitted_of_ok {f p : List Byte} (h : decodeFrame f = .ok p) : decodeEmitted f = p := by
  obtain ⟨-, hu⟩ := decodeFrame_eq_ok h
  rw [decodeEmitted, unescape_eq_ok.1 hu]
  exact dropLast2_append_pair p _ _

/-- Settles O56: the frame is accepted, and what is written for an accepted frame is its payload. -/
theorem frameRoundTrip : Obligations.FrameRoundTrip := by
  intro p
  have hdec := decodeFrame_encodeFrame p
  refine ⟨hdec, ?_⟩
  rw [txEncodeFrame, txDecodeFrame, decodeEmitted_of_ok hdec, hdec, decodeCode]

/-- Settles O57: the interior unescapes to the changed payload and the old checksum, which one changed byte shows. -/
theorem tamperedPayloadIsRejected : Obligations.TamperedPayloadIsRejected := by
  refine ⟨fun before after x y hne => ?_, by decide, by decide⟩
  have hcsum : csumValue (before ++ y :: after) ≠ csumValue (before ++ x :: after) :=
    mt (csumValue_replace_byte before after).1 hne.symm
  exact (decodeFrame_delimited (unescapeInvertsEscape _).2).trans (if_neg hcsum)

end Sys2Proof.Machine
end

section
/-! O50. The code of each command at the transaction level: which codes its row of R111 allows, and an input for each. -/

namespace Sys2Proof.Machine

/-! ## The codes a row of R111 allows -/

/-- A badly escaped sequence is the only failure of UNESCAPE (R85, R89). -/
theorem txUnescape_code_eq_or (s : List Byte) :
    (txUnescape s).code = .ok ∨ (txUnescape s).code = .malformedPayload :=
  ite_eq_or_eq ..

/-- A decode result is never reported as ILLEGAL_COMMAND: the reference decoder has no such error kind (R104, R110). -/
theorem decodeCode_ne_illegalCommand (r : Except CodecError (List Byte)) : decodeCode r ≠ .illegalCommand := by
  cases r with
  | ok p => exact nofun
  | error e => cases e <;> exact nofun

/-- An illegal word writes nothing and reports ILLEGAL_COMMAND (R61). -/
theorem txWord_illegal {w : Word64} {e : DecodeError} (s : List Byte) (hd : decodeCmd w = .error e) :
    txWord w s = ⟨[], .illegalCommand, 0⟩ := by
  simp only [txWord, hd]

/-! ## Each allowed code occurs -/

/-- An escape ends with OK, and an escape byte with no byte after it ends with MALFORMED_PAYLOAD. -/
theorem txUnescape_code_occurs {c : ResultCode} (hc : c = .ok ∨ c = .malformedPayload) :
    ∃ s, (txUnescape s).code = c := by
  obtain rfl | rfl := hc
  · exact ⟨escape [], by rw [txUnescape, (unescapeInvertsEscape []).1, if_pos rfl]⟩
  · exact ⟨[0x03], rfl⟩

/-- DECODE_FRAME reports what the reference decoder answers (R104). -/
theorem txDecodeFrame_code_of {f : List Byte} {r : Except CodecError (List Byte)} (h : decodeFrame f = r) :
    (txDecodeFrame f).code = decodeCode r :=
  congrArg decodeCode h

/-- An encoded frame, no bytes at all, four bytes without delimiters, and a frame with a changed payload byte. -/
theorem txDecodeFrame_code_occurs {c : ResultCode} (hc : c ≠ .illegalCommand) :
    ∃ f, (txDecodeFrame f).code = c := by
  cases c with
  | ok => exact ⟨_, txDecodeFrame_code_of (decodeFrame_encodeFrame [])⟩
  | invalidLength => exact ⟨[], txDecodeFrame_code_of (decodeFrame_short (by decide))⟩
  | malformedPayload =>
    exact ⟨[0, 0, 0, 0], txDecodeFrame_code_of (decodeFrame_misdelimited (by decide) (by decide))⟩
  | invalidChecksum =>
    exact ⟨_, txDecodeFrame_code_of (tamperedPayloadIsRejected.1 [] [] 0 1 (by decide))⟩
  | illegalCommand => exact absurd rfl hc

/-- Settles O50. -/
theorem codesEachCommandEndsWith : Obligations.CodesEachCommandEndsWith :=
  ⟨fun _ _ => ⟨rfl, rfl, rfl⟩, fun _ => txUnescape_code_eq_or, fun _ f => decodeCode_ne_illegalCommand (decodeFrame f),
    fun _ s _ hd => by rw [txWord_illegal s hd], fun _ => txUnescape_code_occurs, fun _ => txDecodeFrame_code_occurs⟩

end Sys2Proof.Machine
end

section
/-! O10, O41. Reset in any state, and an answer to every turn of either agent in the invariant's states (R124, R129). -/

namespace Sys2Proof.Machine

/-- Settles O10: the step is the host's reset action, and the block it leaves is the one after power-on. -/
theorem resetEventAbandonsCommand : Obligations.ResetEventAbandonsCommand := by
  intro s rest hs
  have hstep : step s = .next (s.withScript rest).assertReset := step_hostAction hs nofun nofun
  obtain ⟨-, hblock, hstatus⟩ := resetSetsEveryBlockElement
  exact ⟨_, hstep, hblock, congrArg (·.setWidth 64) hstatus, rfl, rfl, rfl⟩

/-- Every word is answered, legal or not (R60, R61, R69). -/
theorem acceptWord_total (s : State) (w : Word64) : ∃ t, s.acceptWord w = .next t := by
  unfold State.acceptWord
  cases decodeCmd w with
  | ok i => exact ⟨_, exec_eq i s⟩
  | error e => exact ⟨_, rfl⟩

/-- A turn of the invariant's block is answered: IDLE takes a word or holds, and RUN has a command in progress (R55, R67). -/
theorem blockTurn_total {s : State} (hi : s.Inv) : ∃ t, blockTurn s = .next t := by
  cases hp : s.block.phase with
  | idle =>
    cases hq : s.host.cmdQ with
    | nil => exact ⟨s, blockTurn_idle_holds hi hp hq⟩
    | cons w ws =>
      rw [blockTurn_idle_word hp hq]
      exact acceptWord_total _ w
  | run =>
    obtain ⟨i, h⟩ := blockTurn_running hi hp
    exact ⟨_, h⟩

/-- Settles O41, by whose turn it is: the invariant is the block's alone, so it holds whatever script is left. -/
theorem stepNeverStops : Obligations.StepNeverStops := by
  intro s hi
  cases hs : s.host.script with
  | nil => exact step_quiet hs ▸ blockTurn_total hi
  | cons a rest =>
    have hrest : (s.withScript rest).Inv := hi
    by_cases hb : a = .blockTurn
    · subst hb
      simpa only [step, turn, hs] using blockTurn_total hrest
    by_cases hp : a = .poll
    · subst hp
      simp only [step, turn, hs]
      split
      · exact ⟨_, rfl⟩
      · exact blockTurn_total hi
    · exact ⟨_, step_hostAction hs hb hp⟩

end Sys2Proof.Machine
end
